-- ==== Sys2Proof/Word.lean ====
section
/-!
DEFINITION. The word and byte types of the core (spec 00_scope.md R2, R4) and the output channel order (30_encoding.md R65).
-/

namespace Sys2Proof

/-- A register or command word: 32 bits (00_scope.md R2). -/
abbrev Word := BitVec 32

/-- A byte of the source memory, the output memory or a scale table (20_memory.md R40, R46; 42_scale_lut.md R120). -/
abbrev Byte := BitVec 8

/-- The output channel order of READ_ROW, the ORD bit (30_encoding.md R65): `bgra` is ORD = 0, bytes (B,G,R,A);
`rgba` is ORD = 1, bytes (R,G,B,A). -/
inductive Order where
  | bgra
  | rgba
deriving DecidableEq, Repr

end Sys2Proof
end

