-- ==== Sys2Proof/Syntax.lean ====
section
/-!
DEFINITION. The commands of the core, one constructor per row of spec/opcode_table.json (30_encoding.md R61). The operand
of a command stands in the register ARG, not in the command word (R63), so only READ_ROW carries a field.
-/

namespace Sys2Proof

/-- A legal command word, decoded (30_encoding.md R61). -/
inductive Instr where
  /-- NOP, OP = 0x0 (40_command_interface.md R83). -/
  | nop
  /-- VALIDATE, OP = 0x1 (43_format_validator.md R140). -/
  | validate
  /-- SETUP, OP = 0x2 (44_channel_resolver.md R160). -/
  | setup
  /-- READ_ROW, OP = 0x3, with the output order ORD (45_scanline_reader.md R180). -/
  | readrow (ord : Order)
  /-- BFDEC, OP = 0x4 (41_bitfield_decoder.md R102). -/
  | bfdec
  /-- LUTRD, OP = 0x5 (42_scale_lut.md R123). -/
  | lutrd
deriving DecidableEq, Repr

end Sys2Proof
end

