-- ==== Sys2Proof/Decode.lean ====
section
/-!
DEFINITION. The command word decoder, total on 32-bit words and rejecting by name (30_encoding.md R60 to R62, R66;
40_command_interface.md R80), and the encoder.
-/

namespace Sys2Proof

/-- Why a command word is illegal (30_encoding.md R66). The core reports all three as ILLEGAL_CMD. -/
inductive DecodeError where
  /-- OP is in 0x6..0xF. -/
  | reservedOp
  /-- A bit of RSV (bits 31:5) is 1. -/
  | reservedBits
  /-- ORD = 1 with OP other than 0x3. -/
  | ordOutsideReadRow
deriving DecidableEq, Repr

/-- OP, bits 3:0 of the command word (30_encoding.md R60). -/
def opField (c : Word) : BitVec 4 := c.extractLsb' 0 4

/-- ORD, bit 4 of the command word (30_encoding.md R60). -/
def ordField (c : Word) : BitVec 1 := c.extractLsb' 4 1

/-- RSV, bits 31:5 of the command word (30_encoding.md R60). -/
def rsvField (c : Word) : BitVec 27 := c.extractLsb' 5 27

/-- The order an ORD bit selects (30_encoding.md R65). -/
def orderOfBit (b : BitVec 1) : Order := if b = 0 then .bgra else .rgba

/-- The ORD bit of an order (30_encoding.md R65). -/
def bitOfOrder : Order → BitVec 1
  | .bgra => 0
  | .rgba => 1

/-- The decoder: the checks and the case on OP of `Execute` (40_command_interface.md R80), for every 32-bit word. -/
def decode (c : Word) : Except DecodeError Instr :=
  if 6 ≤ (opField c).toNat then .error .reservedOp
  else if rsvField c ≠ 0 then .error .reservedBits
  else if ordField c = 1 ∧ opField c ≠ 3 then .error .ordOutsideReadRow
  else match (opField c).toNat with
    | 0 => .ok .nop
    | 1 => .ok .validate
    | 2 => .ok .setup
    | 3 => .ok (.readrow (orderOfBit (ordField c)))
    | 4 => .ok .bfdec
    | 5 => .ok .lutrd
    | _ => .error .reservedOp

/-- The operation code of an instruction (30_encoding.md R61). -/
def opcode : Instr → BitVec 4
  | .nop => 0x0
  | .validate => 0x1
  | .setup => 0x2
  | .readrow _ => 0x3
  | .bfdec => 0x4
  | .lutrd => 0x5

/-- The ORD bit of an instruction: 0 but for READ_ROW, which carries its order there (30_encoding.md R61, R65). -/
def ordBit : Instr → BitVec 1
  | .readrow ord => bitOfOrder ord
  | .nop | .validate | .setup | .bfdec | .lutrd => 0

/-- The encoder: RSV = 0, ORD, OP, from the high bits down (30_encoding.md R60, R62). -/
def encode (i : Instr) : Word := (0 : BitVec 27) ++ ordBit i ++ opcode i

/-- What the decoder reads from a row of spec/opcode_table.json whose bits are `w`, in `nbits` bits, every bit above them 0. A
command word is one 32-bit write (20_memory.md R48), so the table's numbering is the word's own. -/
def decodeTableWord (nbits w : Nat) : Option Instr := (decode (BitVec.ofNat 32 (w % 2 ^ nbits))).toOption

end Sys2Proof
end

