-- ==== Sys2Proof/Machine/Fields.lean ====
section
/-!
DEFINITION. Bit fields of a word (00_scope.md R4) and the bit-counting primitives (00_scope.md R5).
-/

namespace Sys2Proof.Machine

/-- `w[lo+len-1 : lo]` (00_scope.md R4). -/
def getField (w : Word) (lo len : Nat) : BitVec len := w.extractLsb' lo len

/-- The word whose bits `lo+len-1 : lo` are 1. -/
def fieldMask (lo len : Nat) : Word := (BitVec.allOnes len).setWidth 32 <<< lo

/-- The word `w` with `v` written to the field that starts at bit `lo`; every other bit is kept. -/
def setField (w : Word) (lo : Nat) {len : Nat} (v : BitVec len) : Word :=
  (w &&& ~~~ fieldMask lo len) ||| (v.setWidth 32 <<< lo)

/-- `ctz32`: the index of the lowest set bit, for a word other than 0 (00_scope.md R5). -/
def ctz32 (m : Word) : Nat := ((List.range 32).find? m.getLsbD).getD 0

/-- `popcount32`: the number of set bits (00_scope.md R5). -/
def popcount32 (m : Word) : Nat := (List.range 32).countP m.getLsbD

/-- `bitlen32`: 0 for 0, else 1 + the index of the highest set bit (00_scope.md R5). -/
def bitlen32 (m : Word) : Nat :=
  match (List.range 32).reverse.find? m.getLsbD with
  | none => 0
  | some i => 1 + i

end Sys2Proof.Machine
end

