-- ==== Sys2Proof/Config.lean ====
section
/-!
DEFINITION. What the spec leaves open: the free values and the platform's parameters. Each is an opaque constant, so
no proof can see what it is and a claim about it holds for every value.
-/

namespace Sys2Proof.Config

/-- The byte at an index of the source memory that nothing has written: the host owns that memory and the spec gives it no
first contents (10_state.md R33). Free value, log 4. -/
opaque initialSource : Nat → Byte

/-- The byte at an index of the output memory that nothing has written (10_state.md R33). Free value, log 4. -/
opaque initialOutput : Nat → Byte

/-- Draw number `n`, source index `i`: the byte the core reads at an index that another agent changes during the command
("a free draw", 20_memory.md R56). Free value, log 8. -/
opaque drawByte : (n i : Nat) → Byte

/-- Draw number `n`, output index `j`: whether the new byte (true) or the old byte (false) stands there, or is seen there
(70_reset_and_hazards.md R262, R274). Free value, log 9 and 10. -/
opaque drawNew : (n j : Nat) → Bool

/-- MemRead of a byte count other than 2, 3, 4, to which 20_memory.md R44 gives no value. No reachable command asks for it
(45_scanline_reader.md R181). Free value, log 6. -/
opaque memReadOther : (off : Int) → (n : Nat) → Word

/-- LUT(w, i) outside the tables: "No entry exists for w = 0 or w > 8, or for i >= 2^w" (42_scale_lut.md R120). No reachable
command asks for it (46_pixel_packer.md R201). Free value, log 7. -/
opaque lutOutside : (w i : Nat) → Byte

/-- REG_BASE, the system address of the register window, an OPEN platform parameter (92_eei_decisions.md D14). Log 14. -/
opaque regBase : Nat

/-- SRC_BASE, the system address of source index 0, an OPEN platform parameter (92_eei_decisions.md D14). Log 14. -/
opaque srcBase : Nat

/-- OUT_BASE, the system address of output index 0, an OPEN platform parameter (92_eei_decisions.md D14). Log 14. -/
opaque outBase : Nat

end Sys2Proof.Config
end

