-- ==== Sys2Proof/Machine/RegMap.lean ====
section
/-!
DEFINITION. The register window (10_state.md R10): the names, offsets and access classes of the 19 registers, and where the
platform places the window and the two memories (92_eei_decisions.md D14).
-/

namespace Sys2Proof.Machine

/-- The 19 registers of the window, in the order of their offsets (10_state.md R10). -/
inductive Reg where
  | cmd | arg | status | result0 | result1 | width | height | depth | compression
  | maskR | maskG | maskB | maskA | stride | bufLen | chR | chG | chB | chA
deriving DecidableEq, Repr

/-- The access class of a register (10_state.md R10): `w` is CMD alone. -/
inductive Access where
  | rw | r | w
deriving DecidableEq, Repr

/-- The byte offset of a register in the window (10_state.md R10). -/
def Reg.byteOffset : Reg → Nat
  | .cmd => 0x00 | .arg => 0x04 | .status => 0x08 | .result0 => 0x0C | .result1 => 0x10
  | .width => 0x14 | .height => 0x18 | .depth => 0x1C | .compression => 0x20
  | .maskR => 0x24 | .maskG => 0x28 | .maskB => 0x2C | .maskA => 0x30
  | .stride => 0x34 | .bufLen => 0x38
  | .chR => 0x3C | .chG => 0x40 | .chB => 0x44 | .chA => 0x48

/-- The access class of a register (10_state.md R10). -/
def Reg.access : Reg → Access
  | .cmd => .w
  | .arg | .width | .height | .depth | .compression | .maskR | .maskG | .maskB | .maskA | .stride | .bufLen => .rw
  | .status | .result0 | .result1 | .chR | .chG | .chB | .chA => .r

/-- The registers whose write ends the session (10_state.md R13). -/
def Reg.endsSession : Reg → Bool
  | .width | .height | .depth | .compression | .maskR | .maskG | .maskB | .maskA => true
  | .cmd | .arg | .status | .result0 | .result1 | .stride | .bufLen | .chR | .chG | .chB | .chA => false

/-- Every register, in the order of the map (10_state.md R10). -/
def Reg.all : List Reg :=
  [.cmd, .arg, .status, .result0, .result1, .width, .height, .depth, .compression,
   .maskR, .maskG, .maskB, .maskA, .stride, .bufLen, .chR, .chG, .chB, .chA]

/-- A word offset as the register port carries it: the byte offset over 4, so that a misaligned or narrower access
cannot be expressed (20_memory.md R48; log 13). -/
abbrev WordOffset := BitVec 6

/-- The word offset of a register. -/
def Reg.offset (r : Reg) : WordOffset := BitVec.ofNat 6 (r.byteOffset / 4)

/-- The register at a word offset; none at the unmapped byte offsets 0x4C to 0xFC (10_state.md R10). -/
def Reg.atOffset (o : WordOffset) : Option Reg := Reg.all.find? (fun r => r.byteOffset == 4 * o.toNat)

/-- The system address of a register, in the platform's parameter REG_BASE (92_eei_decisions.md D14). -/
def Reg.systemAddress (r : Reg) : Nat := Config.regBase + r.byteOffset

/-- The system address of a source index, in SRC_BASE (20_memory.md R40). -/
def sourceSystemAddress (i : Nat) : Nat := Config.srcBase + i

/-- The system address of an output index, in OUT_BASE (20_memory.md R46). -/
def outputSystemAddress (j : Nat) : Nat := Config.outBase + j

end Sys2Proof.Machine
end

