-- ==== Sys2Proof/Machine/State.lean ====
section
/-!
DEFINITION. The machine's state, its reasons to stop, and reset (10_state.md; 40_command_interface.md R85;
70_reset_and_hazards.md R260).
-/

namespace Sys2Proof.Machine

/-- A byte memory: the bytes something has written, as (index, byte) pairs with indices strictly rising. An index not listed
holds no value known to the model (log 4). -/
abbrev Memory := List Host.Cell

/-- What else happens while a command executes: the broken host duties and the reset whose outcome the spec states. Any of the
three may happen in one command. -/
structure Disturbance where
  /-- Source bytes another agent writes during the command, in order (20_memory.md R56; log 8). -/
  changes : List (BitVec 32 × Byte)
  /-- Output indices other agents read during the command, in order; an index may stand in the list more than once
  (70_reset_and_hazards.md R274; log 10). -/
  reads : List (BitVec 32)
  /-- Whether reset is asserted before the command ends (70_reset_and_hazards.md R262; log 9). -/
  cut : Bool
deriving DecidableEq, Repr

/-- One transaction of the host, or another event from outside the core (40_command_interface.md R85; 60_exceptions.md R244).
The last one is a command during which something else happens. -/
inductive HostOp where
  /-- The host writes a word to the register window (10_state.md R11); at CMD, a command. -/
  | regWrite (off : WordOffset) (v : Word)
  /-- The host reads a word of the register window (10_state.md R12). -/
  | regRead (off : WordOffset)
  /-- The host writes a byte of its source memory (40_command_interface.md R85). -/
  | sourceStore (i : BitVec 32) (b : Byte)
  /-- The host reads a byte of its source memory (40_command_interface.md R85). -/
  | sourceLoad (i : BitVec 32)
  /-- The host writes a byte of its output memory (40_command_interface.md R85). -/
  | outputStore (j : BitVec 32) (b : Byte)
  /-- The host reads a byte of its output memory (40_command_interface.md R85). -/
  | outputLoad (j : BitVec 32)
  /-- Reset between transactions (70_reset_and_hazards.md R260). -/
  | reset
  /-- The command `c`, disturbed while it executes. -/
  | disturbed (c : Word) (d : Disturbance)
deriving DecidableEq, Repr

/-- The core's registers (10_state.md R10; CMD holds nothing and reads 0), the host's two memories (R33), and four fields of
the model's own: the host's coming transactions, what its last read returned, what other agents saw, and the number of the next
free draw. -/
structure State where
  /-- ARG (10_state.md R26). -/
  arg : Word
  /-- STATUS (10_state.md R14). -/
  status : Word
  /-- RESULT0 (10_state.md R27). -/
  result0 : Word
  /-- RESULT1 (10_state.md R27). -/
  result1 : Word
  /-- WIDTH (10_state.md R19). -/
  width : Word
  /-- HEIGHT (10_state.md R20). -/
  height : Word
  /-- DEPTH (10_state.md R21). -/
  depth : Word
  /-- COMPRESSION (10_state.md R22). -/
  compression : Word
  /-- MASK_R (10_state.md R23). -/
  maskR : Word
  /-- MASK_G (10_state.md R23). -/
  maskG : Word
  /-- MASK_B (10_state.md R23). -/
  maskB : Word
  /-- MASK_A (10_state.md R23). -/
  maskA : Word
  /-- STRIDE (10_state.md R24). -/
  stride : Word
  /-- BUF_LEN (10_state.md R25). -/
  bufLen : Word
  /-- CH_R (10_state.md R28). -/
  chR : Word
  /-- CH_G (10_state.md R28). -/
  chG : Word
  /-- CH_B (10_state.md R28). -/
  chB : Word
  /-- CH_A (10_state.md R28). -/
  chA : Word
  /-- The source memory (20_memory.md R40). -/
  source : Memory
  /-- The output memory (20_memory.md R46). -/
  output : Memory
  /-- The model's own: the host's coming transactions, the next one first (log 1). -/
  pending : List HostOp
  /-- The model's own: the value the last read transaction returned (log 2). -/
  readData : Word
  /-- The model's own: the bytes other agents saw in the output memory during the last disturbed command, in the order of their
  reads (log 10). -/
  seen : List Byte
  /-- The model's own: the number of the next free draw (log 3). -/
  draws : Nat
deriving DecidableEq, Repr

/-- Why the machine stops with a fault. It has no constructor: nobody raises a fault, because the core has no trap and no command
makes it refuse later ones (60_exceptions.md R234, R237, R238). Safe: there is no stop to reason about (log 18). -/
inductive Fault where
deriving DecidableEq, Repr

/-- Why an instruction has no meaning. -/
inductive Refusal where
  /-- Raised by an arm of `exec` for an instruction the model does not cover. No arm raises it: every instruction has its
  meaning. Safe. -/
  | notModelled (mnemonic : String)
deriving DecidableEq, Repr

/-- What a step of this machine answers. -/
abbrev Outcome := Host.Outcome State Fault Refusal

/-- The state right after reset: every register 0 (10_state.md R32; 70_reset_and_hazards.md R260), nothing known of the two
memories (log 4), no transaction waiting (R261; log 1), and the model's own fields at 0 and empty (DESIGN CHOICE, log 2, 3 and 10). -/
def State.reset : State :=
  { arg := 0, status := 0, result0 := 0, result1 := 0,
    width := 0, height := 0, depth := 0, compression := 0,
    maskR := 0, maskG := 0, maskB := 0, maskA := 0,
    stride := 0, bufLen := 0,
    chR := 0, chG := 0, chB := 0, chA := 0,
    source := [], output := [], pending := [], readData := 0, seen := [], draws := 0 }

end Sys2Proof.Machine
end

