-- ==== Sys2Proof/Machine/Flags.lean ====
section
/-!
DEFINITION. The fields of STATUS and the codes it holds (10_state.md R14 to R18; 60_exceptions.md R231).
-/

namespace Sys2Proof.Machine

/-- The command error codes (60_exceptions.md R231). -/
inductive CmdError where
  | none | illegalCmd | notValid | notSetup | badArg
deriving DecidableEq, Repr

/-- The value of an error code in STATUS.ERR (60_exceptions.md R231). -/
def CmdError.code : CmdError → BitVec 4
  | .none => 0
  | .illegalCmd => 1
  | .notValid => 2
  | .notSetup => 3
  | .badArg => 4

/-- The reason codes of VALIDATE (10_state.md R14; 43_format_validator.md R143). -/
inductive Reason where
  | ok | widthNegative | widthTooLarge | heightTooLarge | depthUnsupported | compressionUnsupported | maskTooWide
deriving DecidableEq, Repr

/-- The value of a reason code in STATUS.REASON (10_state.md R14). -/
def Reason.code : Reason → BitVec 4
  | .ok => 0
  | .widthNegative => 1
  | .widthTooLarge => 2
  | .heightTooLarge => 3
  | .depthUnsupported => 4
  | .compressionUnsupported => 5
  | .maskTooWide => 6

/-- STATUS.VALID, bit 0 (10_state.md R14). -/
def State.valid (s : State) : Bool := getField s.status 0 1 == 1

/-- STATUS.SETUP_DONE, bit 1 (10_state.md R14). -/
def State.setupDone (s : State) : Bool := getField s.status 1 1 == 1

/-- STATUS.ERR, bits 11:8 (10_state.md R14). -/
def State.err (s : State) : BitVec 4 := getField s.status 8 4

/-- STATUS.REASON, bits 19:16 (10_state.md R14). -/
def State.reason (s : State) : BitVec 4 := getField s.status 16 4

/-- `reg[STATUS].VALID <- b`. -/
def State.setValid (s : State) (b : Bool) : State := { s with status := setField s.status 0 (BitVec.ofBool b) }

/-- `reg[STATUS].SETUP_DONE <- b`. -/
def State.setSetupDone (s : State) (b : Bool) : State := { s with status := setField s.status 1 (BitVec.ofBool b) }

/-- `reg[STATUS].ERR <- e`. -/
def State.setErr (s : State) (e : CmdError) : State := { s with status := setField s.status 8 e.code }

/-- `reg[STATUS].REASON <- r`. -/
def State.setReason (s : State) (r : Reason) : State := { s with status := setField s.status 16 r.code }

end Sys2Proof.Machine
end

