-- ==== Sys2Proof/Machine/Ops.lean ====
section
/-!
DEFINITION. The named operations over the memories and the registers, and how a command ends (60_exceptions.md R230;
40_command_interface.md R80).
-/

namespace Sys2Proof.Machine

/-! ## Memories -/

/-- The canonical form: indices strictly rising. No entry can equal what an unlisted index reads as, since that is no value
(log 4). -/
abbrev Memory.wf (m : Memory) : Prop := m.Pairwise (fun c d => c.1 < d.1)

/-- The byte written at an index, or none where nothing has written it. -/
def Memory.byteAt : Memory → Nat → Option Byte
  | [], _ => none
  | (k, v) :: rest, a => if a = k then some v else Memory.byteAt rest a

/-- One byte written; the list stays in canonical form. -/
def Memory.put : Memory → Nat → Byte → Memory
  | [], a, b => [(a, b)]
  | (k, v) :: rest, a, b =>
    if k < a then (k, v) :: Memory.put rest a b
    else if a = k then (a, b) :: rest
    else (a, b) :: (k, v) :: rest

/-- Several bytes written, in the order of the list. -/
def Memory.putAll (m : Memory) (cells : List (BitVec 32 × Byte)) : Memory :=
  cells.foldl (fun m c => Memory.put m c.1.toNat c.2) m

/-- The byte of the source memory at index `i` (20_memory.md R40); an unknown byte where nothing has written (log 4). -/
def State.sourceByte (s : State) (i : Nat) : Byte := (Memory.byteAt s.source i).getD (Config.initialSource i)

/-- The byte of the output memory at index `j` (20_memory.md R46); an unknown byte where nothing has written (log 4). -/
def State.outputByte (s : State) (j : Nat) : Byte := (Memory.byteAt s.output j).getD (Config.initialOutput j)

/-- `MemWrite(j, 1, v)` (20_memory.md R47). -/
def memWrite (m : Memory) (j : Nat) (v : Byte) : Memory := Memory.put m j v

/-! ## Registers -/

/-- `reg[NAME]`; CMD reads 0 (10_state.md R12). -/
def State.reg (s : State) : Reg → Word
  | .cmd => 0
  | .arg => s.arg
  | .status => s.status
  | .result0 => s.result0
  | .result1 => s.result1
  | .width => s.width
  | .height => s.height
  | .depth => s.depth
  | .compression => s.compression
  | .maskR => s.maskR
  | .maskG => s.maskG
  | .maskB => s.maskB
  | .maskA => s.maskA
  | .stride => s.stride
  | .bufLen => s.bufLen
  | .chR => s.chR
  | .chG => s.chG
  | .chB => s.chB
  | .chA => s.chA

/-- The host's store to a register by its access class: an RW register takes all 32 bits, a read-only one ignores the write
(10_state.md R11). CMD is not stored: its write is a command. -/
def State.storeReg (s : State) (v : Word) : Reg → State
  | .arg => { s with arg := v }
  | .width => { s with width := v }
  | .height => { s with height := v }
  | .depth => { s with depth := v }
  | .compression => { s with compression := v }
  | .maskR => { s with maskR := v }
  | .maskG => { s with maskG := v }
  | .maskB => { s with maskB := v }
  | .maskA => { s with maskA := v }
  | .stride => { s with stride := v }
  | .bufLen => { s with bufLen := v }
  | .cmd | .status | .result0 | .result1 | .chR | .chG | .chB | .chA => s

/-- The session ends: `VALID <- 0`, `SETUP_DONE <- 0` (10_state.md R13). -/
def State.endSession (s : State) : State := (s.setValid false).setSetupDone false

/-- The host's write to a register other than CMD (10_state.md R11, R13). -/
def hostStore (r : Reg) (v : Word) (s : State) : State :=
  if r.endsSession then (s.storeReg v r).endSession else s.storeReg v r

/-! ## The end of a command -/

/-- `raise CmdError(e)`: STATUS.ERR takes the code and nothing else changes (60_exceptions.md R230). The core's one way of
taking an error; it has no trap entry and no return (R237, R238). -/
def raise (e : CmdError) (s : State) : Outcome := .next (s.setErr e)

/-- A command that completes: `reg[STATUS].ERR <- NONE` (40_command_interface.md R80). -/
def complete (s : State) : Outcome := .next (s.setErr .none)

/-! ## Reset -/

/-- Reset of the core: every register takes its reset value and neither memory changes (70_reset_and_hazards.md R260). The host's
coming transactions and the model's own fields are not the core's, so they stay (log 1, 2, 3, 10). -/
def coreReset (s : State) : State :=
  { State.reset with
    source := s.source, output := s.output, pending := s.pending, readData := s.readData, seen := s.seen, draws := s.draws }

end Sys2Proof.Machine
end

