-- ==== Sys2Proof/Machine/Bitfield.lean ====
section
/-!
DEFINITION. The bitfield decoder and BFDEC (41_bitfield_decoder.md).
-/

namespace Sys2Proof.Machine

/-- `decode(m)`: the shift and the reduced mask (41_bitfield_decoder.md R100); gaps are kept (R101). -/
def decodeMask (m : Word) : Nat × Word :=
  if m = 0 then (0, 0) else (ctz32 m, m >>> ctz32 m)

/-- A reduced mask to which a scale table can be bound: 2^w - 1 for some w in 1..8 (41_bitfield_decoder.md R103). -/
def bindable (r : Word) : Bool := [0x01#32, 0x03, 0x07, 0x0F, 0x1F, 0x3F, 0x7F, 0xFF].contains r

/-- RESULT1 of BFDEC: TBL 24, LEN 21:16, NBITS 13:8, SHIFT 4:0 (41_bitfield_decoder.md R102; 10_state.md R27). -/
def bfdecResult1 (shift : Nat) (r : Word) : Word :=
  ((BitVec.ofBool (bindable r)).setWidth 32 <<< 24) ||| (BitVec.ofNat 32 (bitlen32 r) <<< 16)
    ||| (BitVec.ofNat 32 (popcount32 r) <<< 8) ||| BitVec.ofNat 32 shift

/-- BFDEC on the mask in ARG (41_bitfield_decoder.md R102). -/
def execBfdec (s : State) : Outcome :=
  let d := decodeMask s.arg
  complete { s with result0 := d.2, result1 := bfdecResult1 d.1 d.2 }

end Sys2Proof.Machine
end

