-- ==== Sys2Proof/Machine/Control.lean ====
section
/-!
DEFINITION. The command interface's own command, NOP (40_command_interface.md R83).
-/

namespace Sys2Proof.Machine

/-- NOP: nothing but `ERR <- NONE` (40_command_interface.md R83). -/
def execNop (s : State) : Outcome := complete s

end Sys2Proof.Machine
end

