-- ==== Sys2Proof/Machine/Operands.lean ====
section
/-!
DEFINITION. How the commands read their operands and the format registers (10_state.md R19 to R26; 30_encoding.md R63, R64),
and the fields of a ChannelSpec register (10_state.md R28).
-/

namespace Sys2Proof.Machine

/-- `sext_32`: a register as a two's complement integer (00_scope.md R4). -/
def sext32 (v : Word) : Int := v.toInt

/-- `zext_32`: a register as an unsigned number (00_scope.md R4). -/
def zext32 (v : Word) : Nat := v.toNat

/-- The image width (10_state.md R19). -/
def State.imageWidth (s : State) : Int := sext32 s.width

/-- The image height; its sign is the row order (10_state.md R20). -/
def State.imageHeight (s : State) : Int := sext32 s.height

/-- The bits per pixel (10_state.md R21). -/
def State.depthBits (s : State) : Nat := zext32 s.depth

/-- The bytes per pixel, `DEPTH / 8` (10_state.md R21). -/
def State.bpp (s : State) : Nat := s.depthBits / 8

/-- The compression code (10_state.md R22). -/
def State.compressionCode (s : State) : Nat := zext32 s.compression

/-- The compression code of Uncompressed (10_state.md R22). -/
def uncompressed : Nat := 0

/-- The compression code of BitFields (10_state.md R22). -/
def bitFields : Nat := 3

/-- The bytes from one scanline to the next (10_state.md R24). -/
def State.strideBytes (s : State) : Nat := zext32 s.stride

/-- The declared length of the source buffer (10_state.md R25). -/
def State.bufferLength (s : State) : Nat := zext32 s.bufLen

/-- READ_ROW's operand: the signed output row (10_state.md R26). -/
def State.rowOperand (s : State) : Int := sext32 s.arg

/-- LUTRD's operand W, `ARG[3:0]` (30_encoding.md R64). -/
def lutWidthOperand (a : Word) : Nat := (getField a 0 4).toNat

/-- LUTRD's operand I, `ARG[15:8]` (30_encoding.md R64). -/
def lutIndexOperand (a : Word) : Nat := (getField a 8 8).toNat

/-- The operands LUTRD accepts: reserved bits 0, 1 <= W <= 8, I < 2^W (30_encoding.md R64). -/
def lutOperandLegal (a : Word) : Bool :=
  getField a 4 4 == 0 && getField a 16 16 == 0
    && decide (1 ≤ lutWidthOperand a) && decide (lutWidthOperand a ≤ 8) && decide (lutIndexOperand a < 2 ^ lutWidthOperand a)

/-- MASK of a CH register, bits 7:0 (10_state.md R28). -/
def chMask (ch : Word) : BitVec 8 := getField ch 0 8

/-- SHIFT of a CH register, bits 12:8 (10_state.md R28). -/
def chShift (ch : Word) : BitVec 5 := getField ch 8 5

/-- WIDTH of a CH register, bits 19:16 (10_state.md R28). -/
def chWidth (ch : Word) : BitVec 4 := getField ch 16 4

/-- BOUND of a CH register, bit 24 (10_state.md R28). -/
def chBound (ch : Word) : Bool := getField ch 24 1 == 1

end Sys2Proof.Machine
end

