-- ==== Sys2Proof/Machine/Resolver.lean ====
section
/-!
DEFINITION. The channel table resolver and SETUP (44_channel_resolver.md).
-/

namespace Sys2Proof.Machine

/-- One mask a channel (44_channel_resolver.md R161, R162). -/
structure ChannelMasks where
  red : Word
  green : Word
  blue : Word
  alpha : Word
deriving DecidableEq, Repr

/-- A ChannelSpec before it is packed into a CH register (44_channel_resolver.md R163). -/
structure ChannelSpec where
  mask : BitVec 8
  shift : BitVec 5
  width : BitVec 4
  bound : Bool
deriving DecidableEq, Repr

/-- The masks in force: the mask registers under BitFields (44_channel_resolver.md R161), else the defaults of the depth
(R162), by the case of R160. -/
def masksInForce (s : State) : ChannelMasks :=
  if s.compressionCode = bitFields then ⟨s.maskR, s.maskG, s.maskB, s.maskA⟩
  else if s.depthBits = 16 then ⟨0x00007C00, 0x000003E0, 0x0000001F, 0x00000000⟩
  else ⟨0x00FF0000, 0x0000FF00, 0x000000FF, 0x00000000⟩

/-- `resolve(m)` (44_channel_resolver.md R163). Each part is cut to its field's width, which loses no bit in a reachable
SETUP (R167; log 11). -/
def resolve (m : Word) : ChannelSpec :=
  let d := decodeMask m
  { mask := d.2.setWidth 8
    shift := BitVec.ofNat 5 d.1
    width := BitVec.ofNat 4 (popcount32 d.2)
    bound := bindable d.2 }

/-- `pack`: the CH register of a ChannelSpec (44_channel_resolver.md R165). -/
def pack (c : ChannelSpec) : Word :=
  ((BitVec.ofBool c.bound).setWidth 32 <<< 24) ||| (c.width.setWidth 32 <<< 16) ||| (c.shift.setWidth 32 <<< 8)
    ||| c.mask.setWidth 32

/-- SETUP (44_channel_resolver.md R160, R166). -/
def execSetup (s : State) : Outcome :=
  if s.valid then
    let m := masksInForce s
    complete ({ s with
      chR := pack (resolve m.red)
      chG := pack (resolve m.green)
      chB := pack (resolve m.blue)
      chA := pack (resolve m.alpha) }.setSetupDone true)
  else raise .notValid s

end Sys2Proof.Machine
end

