-- ==== Sys2Proof/Machine/ScaleLut.lean ====
section
/-!
DEFINITION. The scale look-up table ROM and LUTRD (42_scale_lut.md).
-/

namespace Sys2Proof.Machine

/-- The indices at which the ROM has an entry: 1 <= w <= 8 and i < 2^w (42_scale_lut.md R120). -/
def lutDefined (w i : Nat) : Bool := decide (1 ≤ w) && decide (w ≤ 8) && decide (i < 2 ^ w)

/-- `LUT(w, i) = floor(i * 255 / (2^w - 1))` (42_scale_lut.md R120), the constant contents of the ROM (10_state.md R30; log 12).
Outside the tables there is no entry: a free value (log 7). -/
def lut (w i : Nat) : Byte :=
  if lutDefined w i then BitVec.ofNat 8 (i * 255 / (2 ^ w - 1)) else Config.lutOutside w i

/-- LUTRD on the operand in ARG (42_scale_lut.md R123). -/
def execLutrd (s : State) : Outcome :=
  if lutOperandLegal s.arg then
    complete { s with
      result0 := (lut (lutWidthOperand s.arg) (lutIndexOperand s.arg)).setWidth 32
      result1 := 0 }
  else raise .badArg s

end Sys2Proof.Machine
end

