-- ==== Sys2Proof/Machine/Packer.lean ====
section
/-!
DEFINITION. Channel extraction, alpha synthesis and the RGBA byte packer (46_pixel_packer.md).
-/

namespace Sys2Proof.Machine

/-- The four bytes of a pixel, for output indices 4x+0 to 4x+3 (46_pixel_packer.md R205). -/
structure PixelBytes where
  o0 : Byte
  o1 : Byte
  o2 : Byte
  o3 : Byte
deriving DecidableEq, Repr

/-- The raw value of a channel (46_pixel_packer.md R200). -/
def extract (p ch : Word) : Word := (p >>> (chShift ch).toNat) &&& (chMask ch).setWidth 32

/-- The scaled value of a channel; 0 without a bound table (46_pixel_packer.md R201). -/
def scale (p ch : Word) : Byte := if chBound ch then lut (chWidth ch).toNat (extract p ch).toNat else 0

/-- The output alpha: 0xFF when some colour is not 0 (46_pixel_packer.md R203). -/
def alphaOf (r g b : Byte) : Byte := if r ≠ 0 ∨ g ≠ 0 ∨ b ≠ 0 then 0xFF else 0x00

/-- The output order multiplexer (46_pixel_packer.md R204). -/
def orderBytes (ord : Order) (r g b a : Byte) : PixelBytes :=
  match ord with
  | .bgra => ⟨b, g, r, a⟩
  | .rgba => ⟨r, g, b, a⟩

/-- The per-pixel datapath (46_pixel_packer.md R202, R205). CH_A is not read (R203). -/
def pixelBytes (s : State) (p : Word) (ord : Order) : PixelBytes :=
  let r := scale p s.chR
  let g := scale p s.chG
  let b := scale p s.chB
  orderBytes ord r g b (alphaOf r g b)

end Sys2Proof.Machine
end

