-- ==== Sys2Proof/Machine/Scanline.lean ====
section
/-!
DEFINITION. The scanline reader and READ_ROW (45_scanline_reader.md; 20_memory.md R42 to R47).
-/

namespace Sys2Proof.Machine

/-- The byte the core uses for a source index: read inside the declared buffer, 0 elsewhere (20_memory.md R42, R43). -/
def srcByte (s : State) (i : Int) : Byte :=
  if 0 ≤ i ∧ i < s.bufferLength then s.sourceByte i.toNat else 0

/-- A 32-bit word from its bytes, the first one the least significant (20_memory.md R44, R45). -/
def packLittleEndian (b0 b1 b2 b3 : Byte) : Word :=
  (b3.setWidth 32 <<< 24) ||| (b2.setWidth 32 <<< 16) ||| (b1.setWidth 32 <<< 8) ||| b0.setWidth 32

/-- `MemRead(i, n)` for n in {2, 3, 4} (20_memory.md R44); for any other n, to which R44 gives no value, a free value
(log 6). -/
def memRead (s : State) (i : Int) (n : Nat) : Word :=
  if n = 2 then packLittleEndian (srcByte s i) (srcByte s (i + 1)) 0 0
  else if n = 3 then packLittleEndian (srcByte s i) (srcByte s (i + 1)) (srcByte s (i + 2)) 0
  else if n = 4 then packLittleEndian (srcByte s i) (srcByte s (i + 1)) (srcByte s (i + 2)) (srcByte s (i + 3))
  else Config.memReadOther i n

/-- The source scanline of an output row (45_scanline_reader.md R182). -/
def sourceRow (row height : Int) : Int := if height < 0 then row else height - 1 - row

/-- The byte offset of pixel `x` of the row in ARG, an exact integer (45_scanline_reader.md R183, R184). -/
def pixelOffset (s : State) (x : Nat) : Int :=
  sourceRow s.rowOperand s.imageHeight * s.strideBytes + x * s.bpp

/-- The bounds check, with its slack above and none below (45_scanline_reader.md R185). -/
def inBounds (off : Int) (bpp len : Nat) : Bool := decide (0 ≤ off ∧ off < len + bpp)

/-- The packed value of a pixel; 0 out of bounds (45_scanline_reader.md R186). -/
def fetchPixel (s : State) (off : Int) : Word :=
  if inBounds off s.bpp s.bufferLength then memRead s off s.bpp else 0

/-- The four output bytes of pixel `x` (45_scanline_reader.md R180). -/
def rowPixel (s : State) (ord : Order) (x : Nat) : PixelBytes := pixelBytes s (fetchPixel s (pixelOffset s x)) ord

/-- The four writes of pixel `x`, in ascending index (45_scanline_reader.md R180). -/
def writePixel (m : Memory) (x : Nat) (o : PixelBytes) : Memory :=
  memWrite (memWrite (memWrite (memWrite m (4 * x) o.o0) (4 * x + 1) o.o1) (4 * x + 2) o.o2) (4 * x + 3) o.o3

/-- The writes of the first `n` pixels, left to right (45_scanline_reader.md R180). -/
def writeRow (pixel : Nat → PixelBytes) : Nat → Memory → Memory
  | 0, m => m
  | n + 1, m => writePixel (writeRow pixel n m) n (pixel n)

/-- The number of pixels the loop `for x in 0 .. width - 1` of READ_ROW visits (45_scanline_reader.md R180); none for a
negative width, which no reachable READ_ROW has (R181; log 11). -/
def State.rowPixels (s : State) : Nat := s.imageWidth.toNat

/-- READ_ROW in an output order, on the row in ARG (45_scanline_reader.md R180). -/
def execReadrow (ord : Order) (s : State) : Outcome :=
  if s.setupDone then complete { s with output := writeRow (rowPixel s ord) s.rowPixels s.output }
  else raise .notSetup s

end Sys2Proof.Machine
end

