-- ==== Sys2Proof/Machine/Validator.lean ====
section
/-!
DEFINITION. The format validator and VALIDATE (43_format_validator.md).
-/

namespace Sys2Proof.Machine

/-- A mask whose bit-width after decoding exceeds 8 bits (43_format_validator.md R142). -/
def maskTooWide (m : Word) : Bool := decide (8 < bitlen32 (decodeMask m).2)

/-- The validator: the reason of the first check that fails, or OK (43_format_validator.md R143, R145). The mask registers
are read only under BitFields (R141); abs(height) is exact (R144). -/
def validateFormat (s : State) : Reason :=
  if s.imageWidth < 0 then .widthNegative
  else if 2 ^ 30 < s.imageWidth then .widthTooLarge
  else if 2 ^ 30 < s.imageHeight.natAbs then .heightTooLarge
  else if s.depthBits ≠ 16 ∧ s.depthBits ≠ 24 ∧ s.depthBits ≠ 32 then .depthUnsupported
  else if s.compressionCode ≠ uncompressed ∧ s.compressionCode ≠ bitFields then .compressionUnsupported
  else if s.compressionCode = bitFields ∧ [s.maskR, s.maskG, s.maskB, s.maskA].any maskTooWide then .maskTooWide
  else .ok

/-- VALIDATE (43_format_validator.md R146). A rejection completes with ERR = NONE (R140). -/
def execValidate (s : State) : Outcome :=
  let code := validateFormat s
  complete (((s.setReason code).setValid (code == .ok)).setSetupDone false)

end Sys2Proof.Machine
end

