-- ==== Sys2Proof/Machine/Dispatch.lean ====
section
/-!
DEFINITION. The dispatch of a legal command to its meaning (40_command_interface.md R80).
-/

namespace Sys2Proof.Machine

def exec (i : Instr) (s : State) : Host.Outcome State Fault Refusal :=
  match i with
  | .nop => Sys2Proof.Machine.execNop s
  | .validate => Sys2Proof.Machine.execValidate s
  | .setup => Sys2Proof.Machine.execSetup s
  | .readrow ord => Sys2Proof.Machine.execReadrow ord s
  | .bfdec => Sys2Proof.Machine.execBfdec s
  | .lutrd => Sys2Proof.Machine.execLutrd s

end Sys2Proof.Machine
end

