-- ==== Sys2Proof/Machine/Bus.lean ====
section
/-!
DEFINITION. The command interface and the host's transactions (40_command_interface.md R80, R81, R85; 10_state.md R11, R12), and a
command disturbed by reset (70_reset_and_hazards.md R262) or by a broken host duty (20_memory.md R56; 70_reset_and_hazards.md R274).
-/

namespace Sys2Proof.Machine

/-- `Execute(c)`: an illegal word raises ILLEGAL_CMD before any other check, a legal one runs (40_command_interface.md R80 to
R82). -/
def execute (c : Word) (s : State) : Outcome :=
  match decode c with
  | .ok i => exec i s
  | .error _ => raise .illegalCmd s

/-- A host write to the register window (10_state.md R11): ignored at an unmapped offset, a command at CMD. -/
def busWrite (off : WordOffset) (v : Word) (s : State) : Outcome :=
  match Reg.atOffset off with
  | none => .next s
  | some .cmd => execute v s
  | some r => .next (hostStore r v s)

/-- What a host read of the register window returns: 0 at an unmapped offset (10_state.md R12). -/
def busRead (off : WordOffset) (s : State) : Word :=
  match Reg.atOffset off with
  | none => 0
  | some r => s.reg r

/-- The value a read transaction returns to the host; the core does not change (10_state.md R12; log 2). -/
def State.returning (s : State) (v : Word) : State := { s with readData := v }

/-- `f` on the state a command leaves. -/
def andThen (o : Outcome) (f : State → State) : Outcome :=
  match o with
  | .next t => .next (f t)
  | .fault r => .fault r
  | .refused r => .refused r

/-- The source memory as the core reads it while another agent changes it: a free draw at each changed index
(20_memory.md R56; log 8). -/
def tearSource (n : Nat) (changes : List (BitVec 32 × Byte)) (m : Memory) : Memory :=
  changes.foldl (fun m c => Memory.put m c.1.toNat (Config.drawByte n c.1.toNat)) m

/-- The first `n` output bytes after an abandoned command: each the old byte or the one the command would have written, by a free
draw (70_reset_and_hazards.md R262; log 9). -/
def mixOutput (draw : Nat) (old new : Memory) : Nat → Memory
  | 0 => old
  | j + 1 =>
    match Memory.byteAt new j with
    | none => mixOutput draw old new j
    | some b => if Config.drawNew draw j then Memory.put (mixOutput draw old new j) j b else mixOutput draw old new j

/-- What other agents see at output indices they read during a command that leads from `old` to `new`: for each read the old byte or
the new one, by a free draw of its own, the first with the number `draw` (70_reset_and_hazards.md R274; log 10). -/
def peekBytes (old new : State) : (draw : Nat) → List (BitVec 32) → List Byte
  | _, [] => []
  | draw, j :: rest =>
    (if Config.drawNew draw j.toNat then new.outputByte j.toNat else old.outputByte j.toNat) :: peekBytes old new (draw + 1) rest

/-- The command `c`, disturbed while it executes. The core reads free draws at the source bytes that change, and the source memory
holds the agent's bytes afterwards (20_memory.md R56; log 8). Other agents see old or new output bytes (70_reset_and_hazards.md
R274; log 10). A reset abandons the command and resets the registers, and of the bytes the command would have written to the output
memory a free choice has landed (R262; log 9); without it the command's effect is whole (R274). -/
def disturbed (c : Word) (d : Disturbance) (s : State) : Outcome :=
  andThen (execute c { s with source := tearSource s.draws d.changes s.source }) fun u =>
    let t := if d.cut then { coreReset s with output := mixOutput s.draws s.output u.output (4 * s.rowPixels) } else u
    { t with
      source := Memory.putAll s.source d.changes
      seen := peekBytes s u (s.draws + 1) d.reads
      draws := s.draws + 1 + d.reads.length }

/-- One transaction of the host, or another event from outside (40_command_interface.md R85). -/
def perform (op : HostOp) (s : State) : Outcome :=
  match op with
  | .regWrite off v => busWrite off v s
  | .regRead off => .next (s.returning (busRead off s))
  | .sourceStore i b => .next { s with source := Memory.put s.source i.toNat b }
  | .sourceLoad i => .next (s.returning ((s.sourceByte i.toNat).setWidth 32))
  | .outputStore j b => .next { s with output := Memory.put s.output j.toNat b }
  | .outputLoad j => .next (s.returning ((s.outputByte j.toNat).setWidth 32))
  | .reset => .next (coreReset s)
  | .disturbed c d => disturbed c d s

end Sys2Proof.Machine
end

