-- ==== Sys2Proof/Machine/Step.lean ====
section
/-!
DEFINITION. The step: the host's next transaction (40_command_interface.md R85; log 1).
-/

namespace Sys2Proof.Machine

/-- One step. With no transaction waiting nothing happens: "The core has no step of its own" (40_command_interface.md R85). -/
def step (s : State) : Host.Outcome State Fault Refusal :=
  match s.pending with
  | [] => .next s
  | op :: rest => perform op { s with pending := rest }

/-- `s` with the command word `w` as the host's next transaction, a write to CMD: where the core takes its next command
(20_memory.md R54; log 1). -/
def State.withFetchWord (s : State) (nbits w : Nat) : State :=
  { s with pending := .regWrite Reg.cmd.offset (BitVec.ofNat 32 (w % 2 ^ nbits)) :: s.pending }

end Sys2Proof.Machine
end

