-- ==== Sys2Proof/Safety.lean ====
section
/-!
DEFINITION. What the spec says holds of the core at every observable point: the invariants the statements use
(10_state.md R14, R27, R29; 44_channel_resolver.md R166, R167; 45_scanline_reader.md R181).
-/

namespace Sys2Proof.Machine

/-- STATUS: the reserved bits read 0, ERR is at most 4 and REASON at most 6 (10_state.md R14). -/
def StatusLegal (s : State) : Prop :=
  s.status.extractLsb' 2 6 = 0 ∧ s.status.extractLsb' 12 4 = 0 ∧ s.status.extractLsb' 20 12 = 0
    ∧ s.err.toNat ≤ 4 ∧ s.reason.toNat ≤ 6

/-- RESULT1: the bits no command gives a value are 0 (10_state.md R27). -/
def Result1Legal (s : State) : Prop :=
  s.result1.extractLsb' 5 3 = 0 ∧ s.result1.extractLsb' 14 2 = 0 ∧ s.result1.extractLsb' 22 2 = 0
    ∧ s.result1.extractLsb' 25 7 = 0

/-- A CH register: the reserved bits read 0 (10_state.md R28) and the invariants of 10_state.md R29 hold. -/
def ChannelLegal (ch : Word) : Prop :=
  ch.extractLsb' 13 3 = 0 ∧ ch.extractLsb' 20 4 = 0 ∧ ch.extractLsb' 25 7 = 0
    ∧ (chBound ch = true → 1 ≤ (chWidth ch).toNat ∧ (chWidth ch).toNat ≤ 8 ∧ (chMask ch).toNat = 2 ^ (chWidth ch).toNat - 1)
    ∧ (chMask ch = 0 → chWidth ch = 0 ∧ chBound ch = false)
    ∧ (chShift ch).toNat + bitlen32 ((chMask ch).setWidth 32) ≤ 32

/-- The four CH registers. -/
def ChannelsLegal (s : State) : Prop := ChannelLegal s.chR ∧ ChannelLegal s.chG ∧ ChannelLegal s.chB ∧ ChannelLegal s.chA

/-- A format VALIDATE accepts, in the words of 10_state.md R19 to R23 and 45_scanline_reader.md R181: the ranges of width,
height, depth and compression, and under BitFields no mask whose reduced mask exceeds 8 bits. -/
def FormatAccepted (s : State) : Prop :=
  0 ≤ s.width.toInt ∧ s.width.toInt ≤ 2 ^ 30
    ∧ -2 ^ 30 ≤ s.height.toInt ∧ s.height.toInt ≤ 2 ^ 30
    ∧ (s.depth = 16 ∨ s.depth = 24 ∨ s.depth = 32)
    ∧ (s.compression = 0 ∨ s.compression = 3)
    ∧ (s.compression = 3 → ∀ m ∈ [s.maskR, s.maskG, s.maskB, s.maskA], (decodeMask m).2.toNat ≤ 0xFF)

/-- The CH registers hold the ChannelSpecs of the masks in force (44_channel_resolver.md R160, R166). -/
def ChannelsResolved (s : State) : Prop :=
  s.chR = pack (resolve (masksInForce s).red) ∧ s.chG = pack (resolve (masksInForce s).green)
    ∧ s.chB = pack (resolve (masksInForce s).blue) ∧ s.chA = pack (resolve (masksInForce s).alpha)

/-- The session flags: SETUP_DONE needs VALID, VALID says that the format registers hold an accepted format and REASON is OK,
and SETUP_DONE says that the CH registers are theirs (10_state.md R13, R15, R16; 44_channel_resolver.md R166, R167;
45_scanline_reader.md R181). -/
def SessionSound (s : State) : Prop :=
  (s.setupDone = true → s.valid = true)
    ∧ (s.valid = true → FormatAccepted s ∧ s.reason = 0)
    ∧ (s.setupDone = true → ChannelsResolved s)

/-- Both memories are in canonical form. -/
def MemoriesCanonical (s : State) : Prop := Memory.wf s.source ∧ Memory.wf s.output

/-- All of the invariants. -/
def Inv (s : State) : Prop :=
  StatusLegal s ∧ Result1Legal s ∧ ChannelsLegal s ∧ SessionSound s ∧ MemoriesCanonical s

/-! ## Terms of the frames and of the whole-machine rules -/

/-- Every bit of STATUS outside `mask` is as before. -/
def StatusKept (mask : Word) (s t : State) : Prop := t.status &&& ~~~ mask = s.status &&& ~~~ mask

/-- Every byte of both memories reads as before. -/
def MemoriesKept (s t : State) : Prop :=
  (∀ i, t.sourceByte i = s.sourceByte i) ∧ ∀ j, t.outputByte j = s.outputByte j

/-- `lo` is the index of the lowest set bit of `m`. -/
def IsLowestBit (m : Word) (lo : Nat) : Prop := m.getLsbD lo = true ∧ ∀ j < lo, m.getLsbD j = false

/-- `hi` is the index of the highest set bit of `m`. -/
def IsHighestBit (m : Word) (hi : Nat) : Prop := m.getLsbD hi = true ∧ ∀ j, hi < j → m.getLsbD j = false

/-- The number of set bits of `m`. -/
def setBits (m : Word) : Nat := ((Finset.range 32).filter fun i => m.getLsbD i = true).card

/-- `r` is 2^w - 1 for some w in 1..8 (41_bitfield_decoder.md R103). -/
def IsTableMask (r : Word) : Prop := ∃ w, 1 ≤ w ∧ w ≤ 8 ∧ r.toNat = 2 ^ w - 1

/-- The CH register of a channel whose mask in force is `m`, in the words of 44_channel_resolver.md R163 and R164. -/
def DescribesMask (ch m : Word) : Prop :=
  (m = 0 → ch = 0)
    ∧ ∀ lo, IsLowestBit m lo →
      (chShift ch).toNat = lo ∧ chMask ch = (m >>> lo).setWidth 8
        ∧ ((m >>> lo).toNat ≤ 0xFF → (chWidth ch).toNat = setBits m)
        ∧ (chBound ch = true ↔ IsTableMask (m >>> lo))
        ∧ ch.extractLsb' 13 3 = 0 ∧ ch.extractLsb' 20 4 = 0 ∧ ch.extractLsb' 25 7 = 0

/-- The command word that an event runs to its end, if it runs one. -/
def HostOp.command : HostOp → Option Word
  | .regWrite off v => if off = 0 then some v else none
  | .disturbed c d => if d.cut then none else some c
  | .regRead _ | .sourceStore _ _ | .sourceLoad _ | .outputStore _ _ | .outputLoad _ | .reset => none

/-- The events that reset the core. -/
def HostOp.isReset : HostOp → Bool
  | .reset => true
  | .disturbed _ d => d.cut
  | .regWrite _ _ | .regRead _ | .sourceStore _ _ | .sourceLoad _ | .outputStore _ _ | .outputLoad _ => false

/-- A host write to a register whose write ends the session (10_state.md R13). -/
def HostOp.endsSession (op : HostOp) : Prop := ∃ (r : Reg) (v : Word), r.endsSession = true ∧ op = .regWrite r.offset v

end Sys2Proof.Machine
end

