-- ==== Sys2Proof/Machine/Assembler.lean ====
section
/-!
DEFINITION. The host's program lines and their expansion into bus transactions (30_encoding.md R67, R68).
-/

namespace Sys2Proof.Machine

/-- One line of a host program: the eight forms of 30_encoding.md R67 (both orders of `readrow` in one) and the
pseudo-instructions of R68. -/
inductive AsmLine where
  /-- `wr NAME, v` -/
  | wr (r : Reg) (v : Int)
  /-- `rd NAME` -/
  | rd (r : Reg)
  /-- `nop` -/
  | nop
  /-- `validate` -/
  | validate
  /-- `setup` -/
  | setup
  /-- `readrow.bgra`, `readrow.rgba`, the row already in ARG -/
  | readrow (ord : Order)
  /-- `bfdec`, the mask already in ARG -/
  | bfdec
  /-- `lutrd`, the operand already in ARG -/
  | lutrd
  /-- `readrow.bgra r`, `readrow.rgba r` -/
  | readrowAt (ord : Order) (r : Int)
  /-- `bfdec m` -/
  | bfdecOf (m : Int)
  /-- `lutrd w, i` -/
  | lutrdAt (w i : Int)
  /-- `setfmt w, h, d, c` -/
  | setfmt (w h d c : Int)
  /-- `setmasks r, g, b, a` -/
  | setmasks (r g b a : Int)
  /-- `setbuf s, n` -/
  | setbuf (s n : Int)
deriving DecidableEq, Repr

/-- The 32-bit word a number is written as, two's complement where negative (30_encoding.md R68). -/
def literalWord (v : Int) : Word := BitVec.ofInt 32 v

/-- `wr NAME, v` as a transaction (30_encoding.md R67). -/
def wrOp (r : Reg) (v : Word) : HostOp := .regWrite r.offset v

/-- A command as a transaction: its word written to CMD (30_encoding.md R67). -/
def cmdOp (i : Instr) : HostOp := wrOp .cmd (encode i)

/-- The expansion of a line, in order (30_encoding.md R67, R68). -/
def AsmLine.expand : AsmLine → List HostOp
  | .wr r v => [wrOp r (literalWord v)]
  | .rd r => [.regRead r.offset]
  | .nop => [cmdOp .nop]
  | .validate => [cmdOp .validate]
  | .setup => [cmdOp .setup]
  | .readrow ord => [cmdOp (.readrow ord)]
  | .bfdec => [cmdOp .bfdec]
  | .lutrd => [cmdOp .lutrd]
  | .readrowAt ord r => [wrOp .arg (literalWord r), cmdOp (.readrow ord)]
  | .bfdecOf m => [wrOp .arg (literalWord m), cmdOp .bfdec]
  | .lutrdAt w i => [wrOp .arg ((literalWord i <<< 8) ||| literalWord w), cmdOp .lutrd]
  | .setfmt w h d c =>
    [wrOp .width (literalWord w), wrOp .height (literalWord h), wrOp .depth (literalWord d), wrOp .compression (literalWord c)]
  | .setmasks r g b a =>
    [wrOp .maskR (literalWord r), wrOp .maskG (literalWord g), wrOp .maskB (literalWord b), wrOp .maskA (literalWord a)]
  | .setbuf st n => [wrOp .stride (literalWord st), wrOp .bufLen (literalWord n)]

end Sys2Proof.Machine
end

