-- ==== Sys2Proof/WellFormed.lean ====
section
/-!
DEFINITION. Well-formedness of instructions, and of the host's assembler lines (30_encoding.md R67, R68).
-/

namespace Sys2Proof

/-- Every instruction of the syntax is well formed: its only field is ORD, both of whose values are legal (30_encoding.md
R61), and its operand is checked when it runs, not before (R63). -/
def Instr.wellFormed : Instr → Bool
  | .nop | .validate | .setup | .readrow _ | .bfdec | .lutrd => true

namespace Machine

/-- A number that names a 32-bit word, unsigned or two's complement (30_encoding.md R68; log 17). -/
def wordLiteral (v : Int) : Bool := decide (-2 ^ 31 ≤ v ∧ v < 2 ^ 32)

/-- A number that names a signed operand: `r`, `w`, `h` of 30_encoding.md R68 (log 17). -/
def signedLiteral (v : Int) : Bool := decide (-2 ^ 31 ≤ v ∧ v < 2 ^ 31)

/-- A number that names an unsigned operand (30_encoding.md R68; log 17). -/
def unsignedLiteral (v : Int) : Bool := decide (0 ≤ v ∧ v < 2 ^ 32)

/-- The numbers of a line fit the words they are written as (30_encoding.md R67, R68; log 17). For `lutrd w, i` both fit the
fields of 30_encoding.md R64, so that `(i << 8) | w` keeps them apart. -/
def AsmLine.wellFormed : AsmLine → Bool
  | .wr _ v => wordLiteral v
  | .rd _ | .nop | .validate | .setup | .readrow _ | .bfdec | .lutrd => true
  | .readrowAt _ r => signedLiteral r
  | .bfdecOf m => unsignedLiteral m
  | .lutrdAt w i => decide (0 ≤ w ∧ w < 2 ^ 4) && decide (0 ≤ i ∧ i < 2 ^ 8)
  | .setfmt w h d c => signedLiteral w && signedLiteral h && unsignedLiteral d && unsignedLiteral c
  | .setmasks r g b a => unsignedLiteral r && unsignedLiteral g && unsignedLiteral b && unsignedLiteral a
  | .setbuf st n => unsignedLiteral st && unsignedLiteral n

end Machine

end Sys2Proof
end

