-- ==== Sys2Proof/Certificates/Slice0/Obligations.lean ====
section
/-!
DEFINITION. The statements for the provers. Each docstring names the rule or the section of spec/ it formalises.
-/

open Sys2Proof Sys2Proof.Machine

/-! ## Encoding -/

/-- 30_encoding.md R60 to R62: a word decodes to an instruction exactly when it is that instruction's encoding. -/
def Obligations.DecodeInvertsEncode : Prop :=
  ∀ (c : Word) (i : Instr), decode c = .ok i ↔ i.wellFormed = true ∧ encode i = c

/-- 30_encoding.md R62: the full command words, and every other 32-bit value illegal. -/
def Obligations.LegalWordsAreTheSevenOfTheTable : Prop :=
  ∀ (c : Word) (i : Instr), decode c = .ok i ↔
    (c, i) ∈ [(0x00000000#32, Instr.nop), (0x00000001, .validate), (0x00000002, .setup), (0x00000003, .readrow .bgra),
      (0x00000013, .readrow .rgba), (0x00000004, .bfdec), (0x00000005, .lutrd)]

/-- 30_encoding.md R61: words of the table, written out, decode to their commands. -/
def Obligations.TableWordsDecode : Prop :=
  decode 0x00000001 = .ok .validate ∧ decode 0x00000003 = .ok (.readrow .bgra) ∧ decode 0x00000013 = .ok (.readrow .rgba)
    ∧ decode 0x00000005 = .ok .lutrd

/-- 30_encoding.md R66 and 40_command_interface.md R81: which words are illegal, and that one raises ILLEGAL_CMD before any
other check and changes nothing but STATUS.ERR. -/
def Obligations.IllegalWordSetsOnlyErr : Prop :=
  ∀ (s : State) (rest : List HostOp) (c : Word), s.pending = .regWrite 0 c :: rest →
    (6 ≤ (c.extractLsb' 0 4).toNat ∨ c.extractLsb' 5 27 ≠ 0 ∨ (c.extractLsb' 4 1 = 1 ∧ c.extractLsb' 0 4 ≠ 3)) →
    ∃ t, step s = .next t ∧ t.err = 1 ∧ t = { s with pending := rest, status := t.status } ∧ StatusKept 0xF00 s t
      ∧ MemoriesKept s t

/-! ## The step and the host's transactions -/

/-- 40_command_interface.md R80: when the host's next transaction writes a legal word to CMD (offset 0), the step is that
instruction, the transaction being done. -/
def Obligations.StepRunsTheDecodedCommand : Prop :=
  ∀ (s : State) (rest : List HostOp) (c : Word) (i : Instr), s.pending = .regWrite 0 c :: rest → decode c = .ok i →
    step s = exec i { s with pending := rest }

/-- 40_command_interface.md R85: with no transaction the state stays as it is. That a step is then possible is the model's
choice (log 1). -/
def Obligations.IdleCoreKeepsItsState : Prop := ∀ s : State, s.pending = [] → step s = .next s

/-- 60_exceptions.md R234, R238: no command and no other transaction stops the core, in any state. That a step is possible where no
transaction waits is the model's choice (log 1), and so is that no fault and no refusal exists (log 18). -/
def Obligations.EveryStepHasANextState : Prop := ∀ s : State, ∃ t, step s = .next t

/-- 10_state.md R10: the offsets of the map. -/
def Obligations.RegisterMapOffsets : Prop :=
  [Reg.cmd, .arg, .status, .result0, .result1, .width, .height, .depth, .compression, .maskR, .maskG, .maskB, .maskA, .stride,
    .bufLen, .chR, .chG, .chB, .chA].map (fun r => 4 * r.offset.toNat)
    = [0x00, 0x04, 0x08, 0x0C, 0x10, 0x14, 0x18, 0x1C, 0x20, 0x24, 0x28, 0x2C, 0x30, 0x34, 0x38, 0x3C, 0x40, 0x44, 0x48]

/-- 10_state.md R12: what a host read returns at every word offset, and that it has no side effect on the core. -/
def Obligations.RegisterReadReturnsTheRegister : Prop :=
  ∀ (s : State) (rest : List HostOp) (o : WordOffset), s.pending = .regRead o :: rest →
    step s = .next { s with pending := rest, readData := match o.toNat with
      | 0x00 => 0
      | 0x01 => s.arg
      | 0x02 => s.status
      | 0x03 => s.result0
      | 0x04 => s.result1
      | 0x05 => s.width
      | 0x06 => s.height
      | 0x07 => s.depth
      | 0x08 => s.compression
      | 0x09 => s.maskR
      | 0x0A => s.maskG
      | 0x0B => s.maskB
      | 0x0C => s.maskA
      | 0x0D => s.stride
      | 0x0E => s.bufLen
      | 0x0F => s.chR
      | 0x10 => s.chG
      | 0x11 => s.chB
      | 0x12 => s.chA
      | _ => 0 }

/-- 10_state.md R11, R13: a host write to a register other than CMD. An RW register takes the value and a read-only one ignores
it; a write to a format or mask register, whatever the value, clears VALID and SETUP_DONE, and no other write does. -/
def Obligations.RegisterWriteStoresAndEndsTheSession : Prop :=
  ∀ (s : State) (rest : List HostOp) (r : Reg) (v : Word), r ≠ .cmd → s.pending = .regWrite r.offset v :: rest →
    ∃ t, step s = .next t
      ∧ (∀ q, q ≠ .status → t.reg q =
          if q = r ∧ r ∉ [Reg.status, .result0, .result1, .chR, .chG, .chB, .chA] then v else s.reg q)
      ∧ (if r ∈ [Reg.width, .height, .depth, .compression, .maskR, .maskG, .maskB, .maskA] then
          t.valid = false ∧ t.setupDone = false ∧ StatusKept 0x3 s t else t.status = s.status)
      ∧ MemoriesKept s t ∧ t.pending = rest ∧ t.readData = s.readData

/-- 10_state.md R11: a write to an unmapped offset (0x4C to 0xFC) is ignored. -/
def Obligations.UnmappedWriteIsIgnored : Prop :=
  ∀ (s : State) (rest : List HostOp) (o : WordOffset) (v : Word), 0x4C ≤ 4 * o.toNat →
    s.pending = .regWrite o v :: rest → step s = .next { s with pending := rest }

/-- 40_command_interface.md R85, 20_memory.md R51: the host's own accesses to its two memories: a store changes its byte and no
other and a load returns the byte; no register changes. That the byte a load returns stands in readData, extended by zeros, is the
model's choice (log 2). -/
def Obligations.HostMemoryAccesses : Prop :=
  ∀ (s : State) (rest : List HostOp) (i : BitVec 32) (b : Byte),
    (s.pending = .sourceStore i b :: rest → ∃ t, step s = .next t ∧ (∀ r, t.reg r = s.reg r)
      ∧ (∀ k, t.sourceByte k = if k = i.toNat then b else s.sourceByte k) ∧ ∀ k, t.outputByte k = s.outputByte k)
    ∧ (s.pending = .outputStore i b :: rest → ∃ t, step s = .next t ∧ (∀ r, t.reg r = s.reg r)
      ∧ (∀ k, t.outputByte k = if k = i.toNat then b else s.outputByte k) ∧ ∀ k, t.sourceByte k = s.sourceByte k)
    ∧ (s.pending = .sourceLoad i :: rest → ∃ t, step s = .next t ∧ t.readData.toNat = (s.sourceByte i.toNat).toNat
      ∧ (∀ r, t.reg r = s.reg r) ∧ MemoriesKept s t)
    ∧ (s.pending = .outputLoad i :: rest → ∃ t, step s = .next t ∧ t.readData.toNat = (s.outputByte i.toNat).toNat
      ∧ (∀ r, t.reg r = s.reg r) ∧ MemoriesKept s t)

/-! ## Reset -/

/-- 10_state.md R32: the reset value of every register. -/
def Obligations.ResetValuesAreZero : Prop := ∀ r : Reg, State.reset.reg r = 0x00000000

/-- 70_reset_and_hazards.md R260: reset clears every register and changes neither memory. -/
def Obligations.ResetClearsTheRegisters : Prop :=
  ∀ (s : State) (rest : List HostOp), s.pending = .reset :: rest →
    ∃ t, step s = .next t ∧ (∀ r, t.reg r = 0) ∧ MemoriesKept s t

/-- 70_reset_and_hazards.md R262 and 20_memory.md R56: reset inside a command resets the registers, leaves every source byte that no
other agent changes, and of the output bytes 0 to 4*WIDTH - 1 each is the old byte or the one the command would have written. That it
holds whatever source bytes other agents change and whatever output bytes they read meanwhile, the byte the command would have written
being the one it computes from the source bytes it reads, is the model's reading (log 9; log 8 for the changed bytes); with no source
byte changed, `tearSource` leaves the source memory as it is. -/
def Obligations.ResetDuringACommand : Prop :=
  ∀ (s u : State) (rest : List HostOp) (c : Word) (d : Disturbance), s.pending = .disturbed c d :: rest → d.cut = true →
    execute c { s with pending := rest, source := tearSource s.draws d.changes s.source } = .next u →
    ∃ t, step s = .next t ∧ (∀ r, t.reg r = 0)
      ∧ (∀ i, (∀ x ∈ d.changes, x.1.toNat ≠ i) → t.sourceByte i = s.sourceByte i)
      ∧ (∀ j : Nat, (j : Int) < 4 * s.width.toInt → t.outputByte j = s.outputByte j ∨ t.outputByte j = u.outputByte j)
      ∧ ∀ j : Nat, 4 * s.width.toInt ≤ j → t.outputByte j = s.outputByte j

/-! ## Command errors -/

/-- 60_exceptions.md R231: the error code of every command word in every state, by the conditions of its table. -/
def Obligations.ErrorCodeOfEachCommand : Prop :=
  ∀ (c : Word) (s : State), ∃ t, execute c s = .next t ∧ t.err =
    if c ∉ [0x0#32, 0x1, 0x2, 0x3, 0x13, 0x4, 0x5] then 1
    else if c = 0x2 ∧ s.valid = false then 2
    else if (c = 0x3 ∨ c = 0x13) ∧ s.setupDone = false then 3
    else if c = 0x5 ∧ ¬ (s.arg.extractLsb' 4 4 = 0 ∧ s.arg.extractLsb' 16 16 = 0 ∧ 1 ≤ (s.arg.extractLsb' 0 4).toNat
        ∧ (s.arg.extractLsb' 0 4).toNat ≤ 8 ∧ (s.arg.extractLsb' 8 8).toNat < 2 ^ (s.arg.extractLsb' 0 4).toNat) then 4
    else 0

/-- 60_exceptions.md R230: a command that ends in an error leaves the state before it, with ERR replaced. -/
def Obligations.FailedCommandChangesOnlyErr : Prop :=
  ∀ (c : Word) (s t : State), execute c s = .next t → t.err ≠ 0 →
    t = { s with status := t.status } ∧ StatusKept 0xF00 s t ∧ MemoriesKept s t

/-! ## NOP, BFDEC, LUTRD -/

/-- 40_command_interface.md R83: NOP clears ERR and does nothing else. -/
def Obligations.NopOnlyClearsErr : Prop :=
  ∀ s : State, ∃ t, exec .nop s = .next t ∧ t.err = 0 ∧ t.valid = s.valid ∧ t.setupDone = s.setupDone ∧ t.reason = s.reason
    ∧ t = { s with status := t.status } ∧ StatusKept 0xF00 s t ∧ MemoriesKept s t

/-- 41_bitfield_decoder.md R100: the shift is the index of the lowest set bit, the reduced mask the mask shifted right by it. -/
def Obligations.MaskDecoding : Prop :=
  decodeMask 0 = (0, 0)
    ∧ ∀ m : Word, m ≠ 0 → ∃ lo, lo < 32 ∧ IsLowestBit m lo ∧ decodeMask m = (lo, m >>> lo)

/-- 41_bitfield_decoder.md R101: gaps are kept, bit 0 of the reduced mask of a mask other than 0 is set, and shifting the reduced
mask back gives the mask. -/
def Obligations.MaskDecodingKeepsTheMask : Prop :=
  decodeMask 0x00000500 = (8, 0x00000005)
    ∧ ∀ m : Word, (m ≠ 0 → (decodeMask m).2.getLsbD 0 = true) ∧ (decodeMask m).2 <<< (decodeMask m).1 = m

/-- 41_bitfield_decoder.md R103: which reduced masks are bindable, and that their width is their set bit count and their bit
length. -/
def Obligations.BindableMasks : Prop :=
  ∀ r : Word, (bindable r = true ↔ IsTableMask r)
    ∧ (bindable r = true ↔ r ∈ [0x01#32, 0x03, 0x07, 0x0F, 0x1F, 0x3F, 0x7F, 0xFF])
    ∧ ∀ w, 1 ≤ w → w ≤ 8 → r.toNat = 2 ^ w - 1 → popcount32 r = w ∧ bitlen32 r = w

/-- 41_bitfield_decoder.md R102, 10_state.md R27: BFDEC's two results for every mask in ARG, and its frame. -/
def Obligations.BfdecReportsTheDecodedMask : Prop :=
  ∀ s : State, ∃ t, exec .bfdec s = .next t ∧ t.err = 0
    ∧ (s.arg = 0 → t.result0 = 0 ∧ t.result1 = 0)
    ∧ (∀ lo hi, IsLowestBit s.arg lo → IsHighestBit s.arg hi →
        t.result0 = s.arg >>> lo
          ∧ (t.result1.extractLsb' 0 5).toNat = lo
          ∧ (t.result1.extractLsb' 8 6).toNat = setBits s.arg
          ∧ (t.result1.extractLsb' 16 6).toNat = hi - lo + 1
          ∧ (t.result1.extractLsb' 24 1 = 1 ↔ IsTableMask t.result0)
          ∧ Result1Legal t)
    ∧ t = { s with status := t.status, result0 := t.result0, result1 := t.result1 } ∧ StatusKept 0xF00 s t
    ∧ MemoriesKept s t

/-- 42_scale_lut.md R120, R122: the entries and the properties of every table. -/
def Obligations.ScaleTableProperties : Prop :=
  ∀ w, 1 ≤ w → w ≤ 8 →
    (∀ i, lutDefined w i = true ↔ i < 2 ^ w)
      ∧ (∀ i, i < 2 ^ w → (lut w i).toNat = i * 255 / (2 ^ w - 1))
      ∧ lut w 0 = 0 ∧ lut w (2 ^ w - 1) = 255
      ∧ (∀ i, i + 1 < 2 ^ w → (lut w i).toNat ≤ (lut w (i + 1)).toNat)
      ∧ (w ∈ [1, 2, 4, 8] → ∀ i, i < 2 ^ w → (lut w i).toNat * (2 ^ w - 1) = i * 255)

/-- 42_scale_lut.md R123: LUTRD on a legal operand gives the floored entry and writes 0 to RESULT1. -/
def Obligations.LutrdReadsTheTable : Prop :=
  ∀ (s : State) (w i : Nat), 1 ≤ w → w ≤ 8 → i < 2 ^ w → s.arg.toNat = i * 256 + w →
    ∃ t, exec .lutrd s = .next t ∧ t.err = 0 ∧ t.result0.toNat = i * 255 / (2 ^ w - 1) ∧ t.result1 = 0
      ∧ t = { s with status := t.status, result0 := t.result0, result1 := t.result1 } ∧ StatusKept 0xF00 s t
      ∧ MemoriesKept s t

/-- 42_scale_lut.md R123, 30_encoding.md R64: every operand that is not (I << 8) | W for a legal W and I is refused with
BAD_ARG, and RESULT0 and RESULT1 stay. -/
def Obligations.LutrdRefusesEveryOtherOperand : Prop :=
  ∀ s : State, (¬ ∃ w i, 1 ≤ w ∧ w ≤ 8 ∧ i < 2 ^ w ∧ s.arg.toNat = i * 256 + w) →
    ∃ t, exec .lutrd s = .next t ∧ t.err = 4 ∧ t = { s with status := t.status } ∧ StatusKept 0xF00 s t ∧ MemoriesKept s t

/-! ## VALIDATE -/

/-- 43_format_validator.md R142: the width of a mask is the span from its lowest to its highest set bit, for a contiguous mask
the number of set bits; the check fails exactly when the reduced mask exceeds 0xFF. -/
def Obligations.MaskWidthIsTheSpan : Prop :=
  ∀ m : Word, (∀ lo hi, IsLowestBit m lo → IsHighestBit m hi → bitlen32 (decodeMask m).2 = hi - lo + 1
        ∧ ((∀ i, lo ≤ i → i ≤ hi → m.getLsbD i = true) → bitlen32 (decodeMask m).2 = setBits m))
    ∧ (8 < bitlen32 (decodeMask m).2 ↔ 0xFF < (decodeMask m).2.toNat)

/-- 43_format_validator.md R143, R144, R146: VALIDATE reports the first failing check in their order, with an exact abs(height),
sets VALID exactly on OK, clears SETUP_DONE, and completes with ERR = NONE. -/
def Obligations.ValidateReportsTheFirstFailure : Prop :=
  ∀ s : State, ∃ t, exec .validate s = .next t
    ∧ t.reason =
        (if s.width.toInt < 0 then 1
        else if 2 ^ 30 < s.width.toInt then 2
        else if 2 ^ 30 < s.height.toInt ∨ s.height.toInt < -2 ^ 30 then 3
        else if s.depth ∉ [(16 : Word), 24, 32] then 4
        else if s.compression ∉ [(0 : Word), 3] then 5
        else if s.compression = 3 ∧ (8 < bitlen32 (decodeMask s.maskR).2 ∨ 8 < bitlen32 (decodeMask s.maskG).2
            ∨ 8 < bitlen32 (decodeMask s.maskB).2 ∨ 8 < bitlen32 (decodeMask s.maskA).2) then 6
        else 0)
    ∧ (t.valid = true ↔ t.reason = 0) ∧ t.setupDone = false ∧ t.err = 0
    ∧ t = { s with status := t.status } ∧ StatusKept 0x000F0F03 s t ∧ MemoriesKept s t

/-- 43_format_validator.md R147, 45_scanline_reader.md R181: VALIDATE accepts exactly the formats of the rules R19 to R23 of
10_state.md, and enforces nothing else. -/
def Obligations.ValidateAcceptsExactlyTheFormats : Prop :=
  ∀ s : State, ∃ t, exec .validate s = .next t ∧ (t.valid = true ↔ FormatAccepted s)

/-! ## SETUP -/

/-- 44_channel_resolver.md R160 to R166: SETUP with VALID = 1 stores the ChannelSpecs of the masks in force and sets
SETUP_DONE. -/
def Obligations.SetupResolvesTheMasksInForce : Prop :=
  ∀ s : State, s.valid = true → ∃ t, exec .setup s = .next t ∧ t.setupDone = true ∧ t.err = 0
    ∧ (s.compression = 3 → DescribesMask t.chR s.maskR ∧ DescribesMask t.chG s.maskG ∧ DescribesMask t.chB s.maskB
        ∧ DescribesMask t.chA s.maskA)
    ∧ (s.compression ≠ 3 → s.depth = 16 → DescribesMask t.chR 0x00007C00 ∧ DescribesMask t.chG 0x000003E0
        ∧ DescribesMask t.chB 0x0000001F ∧ t.chA = 0)
    ∧ (s.compression ≠ 3 → s.depth ≠ 16 → DescribesMask t.chR 0x00FF0000 ∧ DescribesMask t.chG 0x0000FF00
        ∧ DescribesMask t.chB 0x000000FF ∧ t.chA = 0)
    ∧ t = { s with status := t.status, chR := t.chR, chG := t.chG, chB := t.chB, chA := t.chA }
    ∧ StatusKept 0xF02 s t ∧ MemoriesKept s t

/-- 44_channel_resolver.md R162, R165: the CH words of the default masks. -/
def Obligations.SetupOfTheDefaultMasks : Prop :=
  ∀ s : State, s.valid = true → s.compression = 0 → ∃ t, exec .setup s = .next t
    ∧ (s.depth = 16 → t.chR = 0x01050A1F ∧ t.chG = 0x0105051F ∧ t.chB = 0x0105001F ∧ t.chA = 0)
    ∧ (s.depth = 24 ∨ s.depth = 32 → t.chR = 0x010810FF ∧ t.chG = 0x010808FF ∧ t.chB = 0x010800FF ∧ t.chA = 0)

/-! ## READ_ROW -/

/-- 45_scanline_reader.md R187: READ_ROW never fails once SETUP_DONE = 1. It completes whatever ARG, STRIDE, BUF_LEN and the
source bytes are, and it changes nothing but ERR and the output bytes below 4*WIDTH. -/
def Obligations.ReadRowNeverFailsAfterSetup : Prop :=
  ∀ (s : State) (ord : Order), s.setupDone = true → ∃ t, exec (.readrow ord) s = .next t ∧ t.err = 0
    ∧ t = { s with status := t.status, output := t.output } ∧ StatusKept 0xF00 s t
    ∧ (∀ i, t.sourceByte i = s.sourceByte i)
    ∧ ∀ j : Nat, 4 * s.width.toInt ≤ j → t.outputByte j = s.outputByte j

/-- 45_scanline_reader.md R180, R182 to R184; 46_pixel_packer.md R204: every pixel of the row: its offset by row order and stride, and
its four output bytes in the order ORD selects. -/
def Obligations.ReadRowDecodesEachPixel : Prop :=
  ∀ (s : State) (ord : Order), s.setupDone = true → ∃ t, exec (.readrow ord) s = .next t ∧
    ∀ x : Nat, (x : Int) < s.width.toInt →
      let srcRow := if s.height.toInt < 0 then s.arg.toInt else s.height.toInt - 1 - s.arg.toInt
      let p := fetchPixel s (srcRow * s.stride.toNat + x * (s.depth.toNat / 8))
      let r := scale p s.chR
      let g := scale p s.chG
      let b := scale p s.chB
      t.outputByte (4 * x) = (match ord with | .bgra => b | .rgba => r)
        ∧ t.outputByte (4 * x + 1) = g
        ∧ t.outputByte (4 * x + 2) = (match ord with | .bgra => r | .rgba => b)
        ∧ t.outputByte (4 * x + 3) = if r = 0 ∧ g = 0 ∧ b = 0 then 0x00 else 0xFF

/-- 45_scanline_reader.md R185, R186, R188; 20_memory.md R43, R44: the packed value of a pixel: 0 below the buffer and at or past
its length, and otherwise the little-endian sum of its bytes, those at or past the length taken as 0. -/
def Obligations.FetchedPixelIsLittleEndian : Prop :=
  ∀ (s : State) (off : Int) (bpp : Nat), bpp ∈ [2, 3, 4] → s.depth.toNat / 8 = bpp →
    (off < 0 → fetchPixel s off = 0)
      ∧ ((s.bufLen.toNat : Int) ≤ off → fetchPixel s off = 0)
      ∧ ∀ o : Nat, off = o → (fetchPixel s off).toNat =
          ∑ k ∈ Finset.range bpp, if o + k < s.bufLen.toNat then (s.sourceByte (o + k)).toNat * 256 ^ k else 0

/-- 20_memory.md R42 and 45_scanline_reader.md R189: two READ_ROW commands in states that agree on the session's geometry, ARG,
STRIDE, BUF_LEN, the three colour channels and the source bytes below BUF_LEN write the same row. So no byte outside the declared
buffer, no mask register, no result register and not CH_A reaches the output. -/
def Obligations.ReadRowDependsOnlyOnTheBuffer : Prop :=
  ∀ (s s' : State) (ord : Order), s.setupDone = true → s'.setupDone = true →
    s.width = s'.width → s.height = s'.height → s.depth = s'.depth → s.stride = s'.stride → s.bufLen = s'.bufLen →
    s.arg = s'.arg → s.chR = s'.chR → s.chG = s'.chG → s.chB = s'.chB →
    (∀ i, i < s.bufLen.toNat → s.sourceByte i = s'.sourceByte i) →
    ∃ t t', exec (.readrow ord) s = .next t ∧ exec (.readrow ord) s' = .next t'
      ∧ ∀ j : Nat, (j : Int) < 4 * s.width.toInt → t.outputByte j = t'.outputByte j

/-- 46_pixel_packer.md R203: the output alpha is 0xFF if a colour byte of the pixel is not 0, else 0x00, and CH_A and the alpha mask
never matter. -/
def Obligations.AlphaIsColourPresence : Prop :=
  ∀ (s : State) (ord : Order) (ca ma : Word), s.setupDone = true → ∃ t, exec (.readrow ord) s = .next t
    ∧ (∀ x : Nat, (x : Int) < s.width.toInt → t.outputByte (4 * x + 3) =
        if t.outputByte (4 * x) ≠ 0 ∨ t.outputByte (4 * x + 1) ≠ 0 ∨ t.outputByte (4 * x + 2) ≠ 0 then 0xFF else 0x00)
    ∧ exec (.readrow ord) { s with chA := ca, maskA := ma } = .next { t with chA := ca, maskA := ma }

/-- 46_pixel_packer.md R207: against ORD = 1, ORD = 0 swaps lanes 0 and 2 of each pixel and leaves lanes 1 and 3. -/
def Obligations.OrderSwapsLanesZeroAndTwo : Prop :=
  ∀ s : State, s.setupDone = true → ∃ t u, exec (.readrow .bgra) s = .next t ∧ exec (.readrow .rgba) s = .next u
    ∧ ∀ x : Nat, (x : Int) < s.width.toInt →
      t.outputByte (4 * x) = u.outputByte (4 * x + 2) ∧ t.outputByte (4 * x + 1) = u.outputByte (4 * x + 1)
        ∧ t.outputByte (4 * x + 2) = u.outputByte (4 * x) ∧ t.outputByte (4 * x + 3) = u.outputByte (4 * x + 3)

/-- 46_pixel_packer.md R201, R206: for a bound channel the table access is always defined, and the scaled value is 0 exactly when
the raw value is; an unbound channel gives 0. -/
def Obligations.ScaledChannelIsZeroExactlyWhenRawIs : Prop :=
  ∀ p ch : Word, ChannelLegal ch →
    (chBound ch = true → lutDefined (chWidth ch).toNat (extract p ch).toNat = true
      ∧ (scale p ch = 0 ↔ extract p ch = 0))
    ∧ (chBound ch = false → scale p ch = 0)

/-- 44_channel_resolver.md R163, R164; 46_pixel_packer.md R200, R201; 42_scale_lut.md R120: in a session set up, the colour value of
every pixel is the field its mask in force selects, expanded to 8 bits and rounded down; a mask that is no run of 1 to 8 bits
gives 0. -/
def Obligations.ColourIsTheExpandedField : Prop :=
  ∀ (s : State) (p : Word), SessionSound s → s.setupDone = true →
    ∀ cm ∈ [(s.chR, (masksInForce s).red), (s.chG, (masksInForce s).green), (s.chB, (masksInForce s).blue)],
      (∀ w sh, 1 ≤ w → w ≤ 8 → cm.2.toNat = (2 ^ w - 1) * 2 ^ sh →
          (scale p cm.1).toNat = (p.toNat / 2 ^ sh % 2 ^ w) * 255 / (2 ^ w - 1))
        ∧ ((¬ ∃ w sh, 1 ≤ w ∧ w ≤ 8 ∧ cm.2.toNat = (2 ^ w - 1) * 2 ^ sh) → scale p cm.1 = 0)

/-- The whole datapath for Uncompressed images, from the source bytes to the output bytes (20_memory.md R44; 44_channel_resolver.md
R162; 45_scanline_reader.md R180 to R188; 46_pixel_packer.md R200 to R205): every pixel that lies in the buffer comes out with its
5-5-5 fields expanded at depth 16, with its own bytes at depths 24 and 32, and with the synthesized alpha. -/
def Obligations.UncompressedRowIsTheImageRow : Prop :=
  ∀ (s : State) (ord : Order), SessionSound s → s.setupDone = true → s.compression = 0 →
    ∃ t, exec (.readrow ord) s = .next t ∧ ∀ x o : Nat, (x : Int) < s.width.toInt →
      (o : Int) = (if s.height.toInt < 0 then s.arg.toInt else s.height.toInt - 1 - s.arg.toInt) * s.stride.toNat
        + x * (s.depth.toNat / 8) →
      o + s.depth.toNat / 8 ≤ s.bufLen.toNat →
      let p16 := (s.sourceByte o).toNat + 256 * (s.sourceByte (o + 1)).toNat
      let r := if s.depth = 16 then p16 / 1024 % 32 * 255 / 31 else (s.sourceByte (o + 2)).toNat
      let g := if s.depth = 16 then p16 / 32 % 32 * 255 / 31 else (s.sourceByte (o + 1)).toNat
      let b := if s.depth = 16 then p16 % 32 * 255 / 31 else (s.sourceByte o).toNat
      (t.outputByte (4 * x)).toNat = (match ord with | .bgra => b | .rgba => r)
        ∧ (t.outputByte (4 * x + 1)).toNat = g
        ∧ (t.outputByte (4 * x + 2)).toNat = (match ord with | .bgra => r | .rgba => b)
        ∧ (t.outputByte (4 * x + 3)).toNat = if r = 0 ∧ g = 0 ∧ b = 0 then 0 else 255

/-- 20_memory.md R40, R46: no command but READ_ROW reads a memory, and none but READ_ROW writes one. -/
def Obligations.OtherCommandsTouchNoMemory : Prop :=
  ∀ (i : Instr) (s : State) (m m' : Memory), (∀ ord, i ≠ .readrow ord) → ∃ t, exec i s = .next t
    ∧ t.source = s.source ∧ t.output = s.output
    ∧ exec i { s with source := m, output := m' } = .next { t with source := m, output := m' }

/-! ## Broken host duties -/

/-- 20_memory.md R56: when another agent changes source bytes during a READ_ROW, only the bytes it changes are affected: every other
source byte stays, and a pixel none of whose bytes is among them is written as without the change. What an affected byte reads as is a
free draw, of which nothing is said. -/
def Obligations.SourceRaceTouchesOnlyItsBytes : Prop :=
  ∀ (s u : State) (rest : List HostOp) (ord : Order) (d : Disturbance),
    s.pending = .disturbed (encode (.readrow ord)) d :: rest → d.cut = false → s.setupDone = true →
    exec (.readrow ord) { s with pending := rest } = .next u →
    ∃ t, step s = .next t ∧ (∀ r, t.reg r = u.reg r)
      ∧ (∀ i, (∀ c ∈ d.changes, c.1.toNat ≠ i) → t.sourceByte i = s.sourceByte i)
      ∧ ∀ x : Nat, (x : Int) < s.width.toInt →
        (∀ c ∈ d.changes, ∀ k : Nat, k < s.depth.toNat / 8 → (c.1.toNat : Int) ≠ pixelOffset s x + k) →
        ∀ k, k < 4 → t.outputByte (4 * x + k) = u.outputByte (4 * x + k)

/-- 70_reset_and_hazards.md R274: agents that read output bytes during a command, any number of bytes and any number of times, see at
each read the old byte or the new one; the reads change nothing of the command's effect, and after a command that reset does not cut
every output byte is the new one. The event, and that `seen` holds what the reads gave, is the model's (log 10), and so is that the new byte
of a command whose source bytes change is the one it computes from the bytes it reads (20_memory.md R56; log 8). -/
def Obligations.OutputPeekSeesOldOrNew : Prop :=
  ∀ (s u : State) (rest : List HostOp) (c : Word) (d : Disturbance), s.pending = .disturbed c d :: rest →
    execute c { s with pending := rest, source := tearSource s.draws d.changes s.source } = .next u →
    ∃ t, step s = .next t ∧ t.pending = rest ∧ t.readData = s.readData
      ∧ (d.cut = false → (∀ r, t.reg r = u.reg r) ∧ t.output = u.output)
      ∧ (d.changes = [] → t.source = u.source)
      ∧ t.seen.length = d.reads.length
      ∧ ∀ (k : Nat) (j : BitVec 32), d.reads[k]? = some j →
          t.seen[k]? = some (s.outputByte j.toNat) ∨ t.seen[k]? = some (u.outputByte j.toNat)

/-! ## Whole-machine rules -/

/-- 10_state.md R15 to R18: the fields of STATUS are changed only by their writers. -/
def Obligations.StatusFieldsHaveOnlyTheirWriters : Prop :=
  ∀ (s t : State) (op : HostOp) (rest : List HostOp), s.pending = op :: rest → step s = .next t →
    (t.valid ≠ s.valid → op.command = some 0x1 ∨ ((op.endsSession ∨ op.isReset = true) ∧ t.valid = false))
      ∧ (t.setupDone ≠ s.setupDone → (op.command = some 0x2 ∧ s.valid = true ∧ t.setupDone = true)
          ∨ ((op.command = some 0x1 ∨ op.endsSession ∨ op.isReset = true) ∧ t.setupDone = false))
      ∧ (t.err ≠ s.err → op.command.isSome ∨ op.isReset = true)
      ∧ (t.reason ≠ s.reason → op.command = some 0x1 ∨ (op.isReset = true ∧ t.reason = 0))

/-- 10_state.md R11, R26 to R28: every other register is changed only by its writers: an RW register by a host write to it, the results by
a BFDEC or LUTRD that completes, the CH registers by a SETUP that completes, and each of them by reset. -/
def Obligations.RegistersHaveOnlyTheirWriters : Prop :=
  ∀ (s t : State) (op : HostOp) (rest : List HostOp) (r : Reg), s.pending = op :: rest → step s = .next t →
    r ≠ .status → t.reg r ≠ s.reg r →
      (r.access = .rw ∧ op = .regWrite r.offset (t.reg r))
        ∨ ((r = .result0 ∨ r = .result1) ∧ (op.command = some 0x4 ∨ op.command = some 0x5) ∧ t.err = 0)
        ∨ ((r = .chR ∨ r = .chG ∨ r = .chB ∨ r = .chA) ∧ op.command = some 0x2 ∧ s.valid = true)
        ∨ (op.isReset = true ∧ t.reg r = 0)

/-- 20_memory.md R40, R46: the core never writes the source memory and only READ_ROW writes the output memory, below 4*WIDTH and with
SETUP_DONE = 1; every other change of a byte is the host's or another agent's own. -/
def Obligations.MemoriesHaveOnlyTheirWriters : Prop :=
  ∀ (s t : State) (op : HostOp) (rest : List HostOp) (a : Nat), s.pending = op :: rest → step s = .next t →
    (t.sourceByte a ≠ s.sourceByte a → (∃ i b, op = .sourceStore i b ∧ i.toNat = a)
        ∨ ∃ c d, op = .disturbed c d ∧ ∃ x ∈ d.changes, x.1.toNat = a)
      ∧ (t.outputByte a ≠ s.outputByte a → (∃ j b, op = .outputStore j b ∧ j.toNat = a)
        ∨ (∃ c, (op.command = some c ∨ ∃ d, op = .disturbed c d ∧ d.cut = true) ∧ (c = 0x3 ∨ c = 0x13) ∧ s.setupDone = true
            ∧ (a : Int) < 4 * s.width.toInt))

/-! ## Invariants -/

/-- Every invariant holds right after reset (10_state.md R14, R27 to R29, R32). The memories' part is the model's (log 4). -/
def Obligations.ResetMeetsTheInvariants : Prop := Inv State.reset

/-- 10_state.md R14: every step keeps STATUS's reserved bits 0 and its codes legal. -/
def Obligations.StatusStaysLegal : Prop := ∀ s t : State, StatusLegal s → step s = .next t → StatusLegal t

/-- 10_state.md R27: every step keeps RESULT1's bits without a field 0. -/
def Obligations.ResultOneStaysLegal : Prop := ∀ s t : State, Result1Legal s → step s = .next t → Result1Legal t

/-- 10_state.md R28, R29: every step keeps the invariants of the CH registers. -/
def Obligations.ChannelsStayLegal : Prop := ∀ s t : State, ChannelsLegal s → step s = .next t → ChannelsLegal t

/-- 10_state.md R13; 44_channel_resolver.md R166, R167; 45_scanline_reader.md R181: every step keeps the session's flags true to the registers. -/
def Obligations.SessionStaysSound : Prop := ∀ s t : State, SessionSound s → step s = .next t → SessionSound t

/-- Every step keeps both memories in canonical form: the model's own invariant (log 4). -/
def Obligations.MemoriesStayCanonical : Prop :=
  ∀ s t : State, MemoriesCanonical s → step s = .next t → MemoriesCanonical t

/-! ## The host's program lines -/

/-- 30_encoding.md R67: the bus transactions of the plain lines. -/
def Obligations.PlainLinesExpandToTheirWords : Prop :=
  (∀ (r : Reg) (v : Word), (AsmLine.wr r v.toNat).expand = [.regWrite r.offset v] ∧ (AsmLine.rd r).expand = [.regRead r.offset])
    ∧ AsmLine.nop.expand = [.regWrite 0 0x00000000] ∧ AsmLine.validate.expand = [.regWrite 0 0x00000001]
    ∧ AsmLine.setup.expand = [.regWrite 0 0x00000002] ∧ (AsmLine.readrow .bgra).expand = [.regWrite 0 0x00000003]
    ∧ (AsmLine.readrow .rgba).expand = [.regWrite 0 0x00000013] ∧ AsmLine.bfdec.expand = [.regWrite 0 0x00000004]
    ∧ AsmLine.lutrd.expand = [.regWrite 0 0x00000005]

/-- 30_encoding.md R64, R68: `lutrd w, i` and `readrow r` load the operand their commands read back. That the numbers must fit is the
model's choice (log 17). -/
def Obligations.PseudoInstructionsLoadTheirOperands : Prop :=
  (∀ w i : Int, (AsmLine.lutrdAt w i).wellFormed = true → ∃ a : Word,
      (AsmLine.lutrdAt w i).expand = [.regWrite 1 a, .regWrite 0 0x5] ∧ (a.toNat : Int) = i * 256 + w)
    ∧ ∀ (ord : Order) (r : Int), (AsmLine.readrowAt ord r).wellFormed = true → ∃ a : Word,
      (AsmLine.readrowAt ord r).expand = [.regWrite 1 a, .regWrite 0 (encode (.readrow ord))] ∧ a.toInt = r
end

