-- ==== Sys2Proof/Laws/Fields.lean ====
section
/-!
SUPPORT. Laws of bit fields and of the bit-counting primitives.
-/

namespace Sys2Proof.Machine

theorem getLsbD_fieldMask (lo len i : Nat) :
    (fieldMask lo len).getLsbD i = (decide (i < 32) && decide (lo ≤ i) && decide (i < lo + len)) := by
  simp only [fieldMask, BitVec.getLsbD_shiftLeft, BitVec.getLsbD_setWidth, BitVec.getLsbD_allOnes]
  by_cases h1 : i < 32 <;> by_cases h2 : lo ≤ i <;> by_cases h3 : i < lo + len <;> simp [h1, h2, h3] <;> omega

theorem getLsbD_setField (w : Word) (lo : Nat) {len : Nat} (v : BitVec len) (i : Nat) :
    (setField w lo v).getLsbD i =
      if lo ≤ i ∧ i < lo + len ∧ i < 32 then v.getLsbD (i - lo) else w.getLsbD i := by
  simp only [setField, BitVec.getLsbD_or, BitVec.getLsbD_and, BitVec.getLsbD_not, getLsbD_fieldMask,
    BitVec.getLsbD_shiftLeft, BitVec.getLsbD_setWidth]
  by_cases h1 : i < 32
  · by_cases h2 : lo ≤ i
    · by_cases h3 : i < lo + len
      · have h4 : i - lo < 32 := by omega
        simp [h1, h2, h3, h4, Nat.not_lt.mpr h2]
      · have h4 : v.getLsbD (i - lo) = false := BitVec.getLsbD_of_ge _ _ (by omega)
        simp [h1, h3, h4]
    · simp [h1, h2, Nat.lt_of_not_le h2]
  · have h4 : w.getLsbD i = false := BitVec.getLsbD_of_ge _ _ (by omega)
    simp [h1, h4]

/-- A field reads back as it was written. -/
theorem getField_setField_same (w : Word) (lo len : Nat) (v : BitVec len) (h : lo + len ≤ 32) :
    getField (setField w lo v) lo len = v := by
  refine BitVec.eq_of_getLsbD_eq fun i hi => ?_
  simp only [getField, BitVec.getLsbD_extractLsb', getLsbD_setField]
  have h1 : lo ≤ lo + i ∧ lo + i < lo + len ∧ lo + i < 32 := by omega
  simp [hi, h1]

/-- A field is kept by a write to a field apart from it. -/
theorem getField_setField_apart (w : Word) (lo' len' lo len : Nat) (v : BitVec len) (h : lo' + len' ≤ lo ∨ lo + len ≤ lo') :
    getField (setField w lo v) lo' len' = getField w lo' len' := by
  refine BitVec.eq_of_getLsbD_eq fun i hi => ?_
  simp only [getField, BitVec.getLsbD_extractLsb', getLsbD_setField]
  have h1 : ¬ (lo ≤ lo' + i ∧ lo' + i < lo + len ∧ lo' + i < 32) := by omega
  simp [h1]

/-- The index `ctz32` gives is that of the lowest set bit. -/
theorem ctz32_spec {m : Word} (h : m ≠ 0) :
    ctz32 m < 32 ∧ m.getLsbD (ctz32 m) = true ∧ ∀ j < ctz32 m, m.getLsbD j = false := by
  cases hf : (List.range 32).find? m.getLsbD with
  | none =>
    refine absurd (BitVec.eq_of_getLsbD_eq fun i hi => ?_) h
    have := List.find?_eq_none.mp hf i (List.mem_range.mpr hi)
    simpa using this
  | some k =>
    have hk : ctz32 m = k := by simp [ctz32, hf]
    rw [hk]
    obtain ⟨h1, h2, h3⟩ := List.find?_range_eq_some.mp hf
    exact ⟨List.mem_range.mp h2, h1, fun j hj => by simpa using h3 j hj⟩

/-- `bitlen32` is one more than the index of the highest set bit. -/
theorem bitlen32_spec (m : Word) :
    (m = 0 ∧ bitlen32 m = 0) ∨
      ∃ k, bitlen32 m = k + 1 ∧ k < 32 ∧ m.getLsbD k = true ∧ ∀ j, k < j → m.getLsbD j = false := by
  unfold bitlen32
  cases hf : (List.range 32).reverse.find? m.getLsbD with
  | none =>
    refine .inl ⟨BitVec.eq_of_getLsbD_eq fun i hi => ?_, rfl⟩
    have := List.find?_eq_none.mp hf i (by simpa using hi)
    simpa using this
  | some k =>
    refine .inr ⟨k, by simp [Nat.add_comm], ?_⟩
    obtain ⟨h1, as, bs, h2, h3⟩ := List.find?_eq_some_iff_append.mp hf
    have hr : List.range 32 = bs.reverse ++ k :: as.reverse := by
      have := congrArg List.reverse h2
      simpa using this
    have hk : (List.range 32)[bs.length]? = some k := by rw [hr]; simp
    have hlen : bs.length < 32 := by
      have := congrArg List.length hr
      simp at this; omega
    have hkb : k = bs.length := by
      rw [List.getElem?_range hlen] at hk; simpa using hk.symm
    refine ⟨by omega, h1, fun j hj => ?_⟩
    by_cases hj32 : j < 32
    · have hm : (List.range 32)[j]? = some j := List.getElem?_range hj32
      rw [hr, List.getElem?_append_right (by simp; omega)] at hm
      have hp : j - bs.reverse.length = (j - bs.length - 1) + 1 := by simp; omega
      rw [hp, List.getElem?_cons_succ] at hm
      have := h3 j (List.mem_reverse.mp (List.mem_of_getElem? hm))
      simpa using this
    · exact BitVec.getLsbD_of_ge _ _ (by omega)

theorem bitlen32_le (m : Word) : bitlen32 m ≤ 32 := by
  rcases bitlen32_spec m with ⟨_, h⟩ | ⟨k, h, hk, _⟩ <;> omega

theorem popcount32_le (m : Word) : popcount32 m ≤ 32 := by
  simpa [popcount32] using List.countP_le_length (p := m.getLsbD) (l := List.range 32)

/-- A word is below a power of two exactly when its bit length is at most the exponent. -/
theorem bitlen32_le_iff (m : Word) (n : Nat) : bitlen32 m ≤ n ↔ m.toNat < 2 ^ n := by
  constructor
  · intro h
    refine Nat.lt_pow_two_of_testBit _ fun j hj => ?_
    rcases bitlen32_spec m with ⟨h0, _⟩ | ⟨k, hk, _, _, hz⟩
    · simp [h0]
    · simpa [BitVec.getLsbD] using hz j (by omega)
  · intro h
    rcases bitlen32_spec m with ⟨_, h0⟩ | ⟨k, hk, _, hb, _⟩
    · omega
    · by_contra hc
      have : m.toNat.testBit k = false := Nat.testBit_lt_two_pow (lt_of_lt_of_le h (Nat.pow_le_pow_right (by omega) (by omega)))
      simp [BitVec.getLsbD, this] at hb

end Sys2Proof.Machine
end

