-- ==== Sys2Proof/Laws/Bitfield.lean ====
section
/-!
SUPPORT. The bitfield decoder, bindable masks, and the fields of a packed ChannelSpec.
-/

namespace Sys2Proof.Machine

@[simp] theorem decodeMask_zero : decodeMask 0 = (0, 0) := rfl

theorem decodeMask_of_ne {m : Word} (h : m ≠ 0) : decodeMask m = (ctz32 m, m >>> ctz32 m) := if_neg h

/-- The shift is a bit index. -/
theorem decodeMask_shift_lt (m : Word) : (decodeMask m).1 < 32 := by
  by_cases h : m = 0
  · subst h; decide
  · rw [decodeMask_of_ne h]; exact (ctz32_spec h).1

theorem getLsbD_decodeMask (m : Word) (i : Nat) : (decodeMask m).2.getLsbD i = m.getLsbD ((decodeMask m).1 + i) := by
  by_cases h : m = 0
  · subst h; simp [decodeMask]
  · rw [decodeMask_of_ne h]; simp

/-- The reduced mask of a mask other than 0 has bit 0 set. -/
theorem decodeMask_bit_zero {m : Word} (h : m ≠ 0) : (decodeMask m).2.getLsbD 0 = true := by
  rw [getLsbD_decodeMask, decodeMask_of_ne h]; exact (ctz32_spec h).2.1

/-- The reduced mask is 0 for the mask 0 alone. -/
theorem decodeMask_eq_zero_iff (m : Word) : (decodeMask m).2 = 0 ↔ m = 0 := by
  refine ⟨fun h => ?_, fun h => by subst h; rfl⟩
  by_contra hm
  have := decodeMask_bit_zero hm
  simp [h] at this

/-- The shift and the bit length of the reduced mask stay inside the word. -/
theorem decodeMask_span (m : Word) : (decodeMask m).1 + bitlen32 (decodeMask m).2 ≤ 32 := by
  rcases bitlen32_spec (decodeMask m).2 with ⟨_, h⟩ | ⟨k, h, _, hb, _⟩
  · have := decodeMask_shift_lt m; omega
  · rw [getLsbD_decodeMask] at hb
    have : (decodeMask m).1 + k < 32 := by
      by_contra hc
      rw [BitVec.getLsbD_of_ge _ _ (by omega)] at hb; simp at hb
    omega

/-- A bindable mask is 2^w - 1 for a w in 1..8, which is then both its set bit count and its bit length. -/
theorem bindable_width {r : Word} (h : bindable r = true) :
    ∃ w, 1 ≤ w ∧ w ≤ 8 ∧ r.toNat = 2 ^ w - 1 ∧ popcount32 r = w ∧ bitlen32 r = w := by
  simp only [bindable, List.contains_iff_mem, List.mem_cons, List.not_mem_nil, or_false] at h
  rcases h with rfl | rfl | rfl | rfl | rfl | rfl | rfl | rfl
  · exact ⟨1, by decide, by decide, by decide, by decide, by decide⟩
  · exact ⟨2, by decide, by decide, by decide, by decide, by decide⟩
  · exact ⟨3, by decide, by decide, by decide, by decide, by decide⟩
  · exact ⟨4, by decide, by decide, by decide, by decide, by decide⟩
  · exact ⟨5, by decide, by decide, by decide, by decide, by decide⟩
  · exact ⟨6, by decide, by decide, by decide, by decide, by decide⟩
  · exact ⟨7, by decide, by decide, by decide, by decide, by decide⟩
  · exact ⟨8, by decide, by decide, by decide, by decide, by decide⟩

theorem bindable_of_width {r : Word} {w : Nat} (h1 : 1 ≤ w) (h8 : w ≤ 8) (h : r.toNat = 2 ^ w - 1) : bindable r = true := by
  have : r = BitVec.ofNat 32 (2 ^ w - 1) := by rw [← h]; simp
  subst this
  interval_cases w <;> decide

/-! A mask by its lowest and its highest set bit. -/

theorem IsLowestBit.unique {m : Word} {a b : Nat} (ha : IsLowestBit m a) (hb : IsLowestBit m b) : a = b := by
  rcases Nat.lt_trichotomy a b with h | h | h
  · have := hb.2 a h; rw [ha.1] at this; cases this
  · exact h
  · have := ha.2 b h; rw [hb.1] at this; cases this

theorem IsLowestBit.lt {m : Word} {lo : Nat} (h : IsLowestBit m lo) : lo < 32 := by
  by_contra hc; have := h.1; rw [BitVec.getLsbD_of_ge _ _ (by omega)] at this; cases this

theorem decodeMask_of_lowest {m : Word} {lo : Nat} (h : IsLowestBit m lo) : decodeMask m = (lo, m >>> lo) := by
  have hm : m ≠ 0 := by rintro rfl; simp [IsLowestBit] at h
  obtain ⟨-, h2, h3⟩ := ctz32_spec hm
  rw [decodeMask_of_ne hm, IsLowestBit.unique ⟨h2, h3⟩ h]

/-- `popcount32` counts the set bits. -/
theorem setBits_eq_popcount32 (m : Word) : setBits m = popcount32 m := by
  unfold setBits popcount32
  rw [List.countP_eq_length_filter]
  simp only [Finset.card, Finset.filter, Finset.range, Multiset.range, Multiset.filter_coe, Multiset.coe_card]
  congr 1; apply List.filter_congr; simp

/-- Shifting out the zeros below the lowest set bit loses no set bit. -/
theorem popcount32_shift {m : Word} {lo : Nat} (h : IsLowestBit m lo) : popcount32 (m >>> lo) = setBits m := by
  have hl := h.lt
  rw [← setBits_eq_popcount32]
  unfold setBits
  apply Finset.card_bij (fun a _ => lo + a)
  · intro a ha
    simp only [Finset.mem_filter, Finset.mem_range, BitVec.getLsbD_ushiftRight] at ha ⊢
    refine ⟨?_, ha.2⟩
    by_contra hc
    rw [BitVec.getLsbD_of_ge _ _ (by omega)] at ha; simp at ha
  · intro a _ b _ h; simpa using h
  · intro b hb
    simp only [Finset.mem_filter, Finset.mem_range] at hb
    have : lo ≤ b := by by_contra hc; have := h.2 b (by omega); simp [this] at hb
    refine ⟨b - lo, ?_, by omega⟩
    simp only [Finset.mem_filter, Finset.mem_range, BitVec.getLsbD_ushiftRight]
    exact ⟨by omega, by rw [show lo + (b - lo) = b by omega]; exact hb.2⟩

/-- The bit length of a reduced mask is the span of the mask. -/
theorem bitlen32_shift {m : Word} {lo hi : Nat} (h : IsLowestBit m lo) (h' : IsHighestBit m hi) :
    lo ≤ hi ∧ bitlen32 (m >>> lo) = hi - lo + 1 := by
  have hle : lo ≤ hi := by by_contra hc; have := h.2 hi (by omega); rw [h'.1] at this; cases this
  refine ⟨hle, ?_⟩
  rcases bitlen32_spec (m >>> lo) with ⟨h0, _⟩ | ⟨k, hk, _, hb, hz⟩
  · have : (m >>> lo).getLsbD 0 = true := by simpa using h.1
    simp [h0] at this
  · have : lo + k = hi := by
      rcases Nat.lt_trichotomy (lo + k) hi with h1 | h1 | h1
      · have := hz (hi - lo) (by omega)
        rw [BitVec.getLsbD_ushiftRight, show lo + (hi - lo) = hi by omega, h'.1] at this; cases this
      · exact h1
      · have := h'.2 _ h1; rw [BitVec.getLsbD_ushiftRight] at hb; rw [hb] at this; cases this
    omega

/-- A run of `w` ones at bit `sh`: its lowest set bit and its reduced mask. -/
theorem lowest_of_run {m : Word} {w sh : Nat} (h1 : 1 ≤ w) (h : m.toNat = (2 ^ w - 1) * 2 ^ sh) :
    IsLowestBit m sh ∧ (m >>> sh).toNat = 2 ^ w - 1 := by
  have hr : (m >>> sh).toNat = 2 ^ w - 1 := by
    rw [BitVec.toNat_ushiftRight, h, Nat.shiftRight_eq_div_pow, Nat.mul_div_cancel _ (by positivity)]
  refine ⟨⟨?_, fun j hj => ?_⟩, hr⟩
  · have : (m >>> sh).getLsbD 0 = true := by
      rw [BitVec.getLsbD, hr, Nat.testBit_two_pow_sub_one]; simp; omega
    simpa using this
  · rw [BitVec.getLsbD, h, Nat.testBit_mul_two_pow]; simp; omega

/-! RESULT1 of BFDEC, bit by bit, and a field of it as a number. -/

theorem getLsbD_bfdecResult1 (sh : Nat) (r : Word) (hs : sh < 32) (i : Nat) :
    (bfdecResult1 sh r).getLsbD i =
      if i < 5 then sh.testBit i
      else if 8 ≤ i ∧ i < 14 then (popcount32 r).testBit (i - 8)
      else if 16 ≤ i ∧ i < 22 then (bitlen32 r).testBit (i - 16)
      else if i = 24 then bindable r
      else false := by
  have small : ∀ n w : Nat, n < 2 ^ w → ∀ j, w ≤ j → n.testBit j = false := fun n w hn j hj =>
    Nat.testBit_lt_two_pow (lt_of_lt_of_le hn (Nat.pow_le_pow_right (by omega) hj))
  have t1 := small sh 5 hs
  have t2 := small (popcount32 r) 6 (by have := popcount32_le r; omega)
  have t3 := small (bitlen32 r) 6 (by have := bitlen32_le r; omega)
  by_cases hi : i < 32
  · simp only [bfdecResult1, BitVec.getLsbD_or, BitVec.getLsbD_shiftLeft, BitVec.getLsbD_ofNat, BitVec.getLsbD_setWidth,
      BitVec.getLsbD_ofBool]
    interval_cases i <;> simp [t1, t2, t3]
  · rw [BitVec.getLsbD_of_ge _ _ (by omega), if_neg (by omega), if_neg (by omega), if_neg (by omega), if_neg (by omega)]

theorem toNat_field {w : Word} {lo len n : Nat} (h : ∀ i < len, w.getLsbD (lo + i) = n.testBit i) (hn : n < 2 ^ len) :
    (w.extractLsb' lo len).toNat = n := by
  have : w.extractLsb' lo len = BitVec.ofNat len n := by
    refine BitVec.eq_of_getLsbD_eq fun i hi => ?_
    rw [BitVec.getLsbD_extractLsb', h i hi, BitVec.getLsbD_ofNat]
  rw [this]; simp [Nat.mod_eq_of_lt hn]

theorem bfdecResult1_reserved (sh : Nat) (r : Word) (hs : sh < 32) :
    (bfdecResult1 sh r).extractLsb' 5 3 = 0 ∧ (bfdecResult1 sh r).extractLsb' 14 2 = 0
      ∧ (bfdecResult1 sh r).extractLsb' 22 2 = 0 ∧ (bfdecResult1 sh r).extractLsb' 25 7 = 0 := by
  refine ⟨?_, ?_, ?_, ?_⟩ <;>
  · refine BitVec.eq_of_getLsbD_eq fun i hi => ?_
    simp only [BitVec.getLsbD_extractLsb', getLsbD_bfdecResult1 _ _ hs]
    interval_cases i <;> simp

/-! The fields of a packed ChannelSpec, and its reserved bits. -/

theorem getLsbD_pack (c : ChannelSpec) (i : Nat) :
    (pack c).getLsbD i =
      if i < 8 then c.mask.getLsbD i
      else if i < 13 then c.shift.getLsbD (i - 8)
      else if 16 ≤ i ∧ i < 20 then c.width.getLsbD (i - 16)
      else if i = 24 then c.bound
      else false := by
  by_cases hi : i < 32
  · interval_cases i <;> simp [pack]
  · rw [BitVec.getLsbD_of_ge _ _ (by omega)]
    have h1 : ¬ i < 8 := by omega
    have h2 : ¬ i < 13 := by omega
    have h3 : ¬ (16 ≤ i ∧ i < 20) := by omega
    have h4 : i ≠ 24 := by omega
    simp [h1, h2, h3, h4]

@[simp] theorem chMask_pack (c : ChannelSpec) : chMask (pack c) = c.mask := by
  refine BitVec.eq_of_getLsbD_eq fun i hi => ?_
  simp only [chMask, getField, BitVec.getLsbD_extractLsb', getLsbD_pack]
  interval_cases i <;> simp

@[simp] theorem chShift_pack (c : ChannelSpec) : chShift (pack c) = c.shift := by
  refine BitVec.eq_of_getLsbD_eq fun i hi => ?_
  simp only [chShift, getField, BitVec.getLsbD_extractLsb', getLsbD_pack]
  interval_cases i <;> simp

@[simp] theorem chWidth_pack (c : ChannelSpec) : chWidth (pack c) = c.width := by
  refine BitVec.eq_of_getLsbD_eq fun i hi => ?_
  simp only [chWidth, getField, BitVec.getLsbD_extractLsb', getLsbD_pack]
  interval_cases i <;> simp

@[simp] theorem chBound_pack (c : ChannelSpec) : chBound (pack c) = c.bound := by
  have h : getField (pack c) 24 1 = BitVec.ofBool c.bound := by
    refine BitVec.eq_of_getLsbD_eq fun i hi => ?_
    simp only [getField, BitVec.getLsbD_extractLsb', getLsbD_pack]
    interval_cases i; simp
  rw [chBound, h]; cases c.bound <;> rfl

theorem pack_reserved (c : ChannelSpec) :
    (pack c).extractLsb' 13 3 = 0 ∧ (pack c).extractLsb' 20 4 = 0 ∧ (pack c).extractLsb' 25 7 = 0 := by
  refine ⟨?_, ?_, ?_⟩ <;>
  · refine BitVec.eq_of_getLsbD_eq fun i hi => ?_
    simp only [BitVec.getLsbD_extractLsb', getLsbD_pack]
    interval_cases i <;> simp

/-- The CH register of any mask is legal. -/
theorem channelLegal_pack_resolve (m : Word) : ChannelLegal (pack (resolve m)) := by
  obtain ⟨a, b, c⟩ := pack_reserved (resolve m)
  refine ⟨a, b, c, ?_, ?_, ?_⟩
  · rw [chBound_pack, chWidth_pack, chMask_pack]
    intro h
    obtain ⟨w, h1, h8, hr, hp, -⟩ := bindable_width (show bindable (decodeMask m).2 = true from h)
    have : 2 ^ w ≤ 2 ^ 8 := Nat.pow_le_pow_right (by omega) h8
    have hw : (resolve m).width.toNat = w := by simp only [resolve, hp]; simp; omega
    rw [hw]
    refine ⟨h1, h8, ?_⟩
    simp only [resolve, BitVec.toNat_setWidth, hr]; omega
  · rw [chBound_pack, chWidth_pack, chMask_pack]
    intro h
    by_cases hm : m = 0
    · subst hm; decide
    · have h0 := decodeMask_bit_zero hm
      have : (resolve m).mask.getLsbD 0 = true := by simp only [resolve, BitVec.getLsbD_setWidth, h0]; decide
      rw [h] at this; simp at this
  · rw [chShift_pack, chMask_pack]
    have hl := decodeMask_shift_lt m
    have hs : (resolve m).shift.toNat = (decodeMask m).1 := by simp only [resolve]; simp; omega
    rw [hs]
    have : bitlen32 ((resolve m).mask.setWidth 32) ≤ bitlen32 (decodeMask m).2 := by
      rw [bitlen32_le_iff]
      have := (bitlen32_le_iff (decodeMask m).2 _).mp le_rfl
      simp only [resolve, BitVec.toNat_setWidth]
      exact lt_of_le_of_lt ((Nat.mod_le _ _).trans (Nat.mod_le _ _)) this
    have := decodeMask_span m
    omega

end Sys2Proof.Machine
end

