-- ==== Sys2Proof/Laws/Decode.lean ====
section
/-!
SUPPORT. The fields of an encoded command word, and the decoder by its checks.
-/

namespace Sys2Proof

theorem opField_encode (i : Instr) : opField (encode i) = opcode i := by
  rcases i with _ | _ | _ | o | _ | _ <;> first | rfl | (cases o <;> rfl)

theorem ordField_encode (i : Instr) : ordField (encode i) = ordBit i := by
  rcases i with _ | _ | _ | o | _ | _ <;> first | rfl | (cases o <;> rfl)

theorem rsvField_encode (i : Instr) : rsvField (encode i) = 0 := by
  rcases i with _ | _ | _ | o | _ | _ <;> first | rfl | (cases o <;> rfl)

/-- A command word is its three fields, from the high bits down. -/
theorem word_of_fields (c : Word) : rsvField c ++ ordField c ++ opField c = c := by
  refine BitVec.eq_of_getLsbD_eq fun i hi => ?_
  simp only [rsvField, ordField, opField, BitVec.getLsbD_append, BitVec.getLsbD_extractLsb']
  rcases Nat.lt_or_ge i 4 with h | h
  · simp [h]
  · rcases Nat.lt_or_ge i 5 with h5 | h5
    · have : i = 4 := by omega
      subst this; simp
    · have h1 : ¬ i < 4 := by omega
      have h2 : ¬ i - 4 < 1 := by omega
      have h3 : 5 + (i - 4 - 1) = i := by omega
      have h4 : i - 4 - 1 < 27 := by omega
      simp [h1, h2, h3, h4]

theorem orderOfBit_bitOfOrder (o : Order) : orderOfBit (bitOfOrder o) = o := by cases o <;> rfl

theorem bitOfOrder_orderOfBit (b : BitVec 1) : bitOfOrder (orderOfBit b) = b := by
  unfold orderOfBit
  split_ifs with h
  · exact h.symm
  · have : b.toNat < 2 := b.isLt
    have h0 : b.toNat ≠ 0 := fun hc => h (BitVec.eq_of_toNat_eq (by simpa using hc))
    exact BitVec.eq_of_toNat_eq (by simp [bitOfOrder]; omega)

/-- The words the decoder accepts: OP below 6, no reserved bit, ORD only with READ_ROW. -/
theorem decode_ok_iff_legal (c : Word) :
    (∃ i, decode c = .ok i) ↔ (opField c).toNat < 6 ∧ rsvField c = 0 ∧ (ordField c = 1 → opField c = 3) := by
  constructor
  · rintro ⟨i, h⟩
    unfold decode at h
    split_ifs at h with h1 h2 h3
    refine ⟨by omega, by simpa using h2, fun h4 => ?_⟩
    by_contra h5; exact h3 ⟨h4, h5⟩
  · rintro ⟨h1, h2, h3⟩
    unfold decode
    have h4 : ¬ (ordField c = 1 ∧ opField c ≠ 3) := fun ⟨ha, hb⟩ => hb (h3 ha)
    rw [if_neg (by omega), if_neg (by simpa using h2), if_neg h4]
    interval_cases (opField c).toNat <;> exact ⟨_, rfl⟩

end Sys2Proof
end

