-- ==== Sys2Proof/Laws/State.lean ====
section
/-!
SUPPORT. One lemma a field for each update of State.
-/

namespace Sys2Proof.Machine

variable (s : State)

@[simp] theorem State.setValid_arg (b : Bool) : (s.setValid b).arg = s.arg := rfl
@[simp] theorem State.setValid_result0 (b : Bool) : (s.setValid b).result0 = s.result0 := rfl
@[simp] theorem State.setValid_result1 (b : Bool) : (s.setValid b).result1 = s.result1 := rfl
@[simp] theorem State.setValid_width (b : Bool) : (s.setValid b).width = s.width := rfl
@[simp] theorem State.setValid_height (b : Bool) : (s.setValid b).height = s.height := rfl
@[simp] theorem State.setValid_depth (b : Bool) : (s.setValid b).depth = s.depth := rfl
@[simp] theorem State.setValid_compression (b : Bool) : (s.setValid b).compression = s.compression := rfl
@[simp] theorem State.setValid_maskR (b : Bool) : (s.setValid b).maskR = s.maskR := rfl
@[simp] theorem State.setValid_maskG (b : Bool) : (s.setValid b).maskG = s.maskG := rfl
@[simp] theorem State.setValid_maskB (b : Bool) : (s.setValid b).maskB = s.maskB := rfl
@[simp] theorem State.setValid_maskA (b : Bool) : (s.setValid b).maskA = s.maskA := rfl
@[simp] theorem State.setValid_stride (b : Bool) : (s.setValid b).stride = s.stride := rfl
@[simp] theorem State.setValid_bufLen (b : Bool) : (s.setValid b).bufLen = s.bufLen := rfl
@[simp] theorem State.setValid_chR (b : Bool) : (s.setValid b).chR = s.chR := rfl
@[simp] theorem State.setValid_chG (b : Bool) : (s.setValid b).chG = s.chG := rfl
@[simp] theorem State.setValid_chB (b : Bool) : (s.setValid b).chB = s.chB := rfl
@[simp] theorem State.setValid_chA (b : Bool) : (s.setValid b).chA = s.chA := rfl
@[simp] theorem State.setValid_source (b : Bool) : (s.setValid b).source = s.source := rfl
@[simp] theorem State.setValid_output (b : Bool) : (s.setValid b).output = s.output := rfl
@[simp] theorem State.setValid_pending (b : Bool) : (s.setValid b).pending = s.pending := rfl
@[simp] theorem State.setValid_readData (b : Bool) : (s.setValid b).readData = s.readData := rfl
@[simp] theorem State.setValid_draws (b : Bool) : (s.setValid b).draws = s.draws := rfl
@[simp] theorem State.setValid_seen (b : Bool) : (s.setValid b).seen = s.seen := rfl

@[simp] theorem State.setSetupDone_arg (b : Bool) : (s.setSetupDone b).arg = s.arg := rfl
@[simp] theorem State.setSetupDone_result0 (b : Bool) : (s.setSetupDone b).result0 = s.result0 := rfl
@[simp] theorem State.setSetupDone_result1 (b : Bool) : (s.setSetupDone b).result1 = s.result1 := rfl
@[simp] theorem State.setSetupDone_width (b : Bool) : (s.setSetupDone b).width = s.width := rfl
@[simp] theorem State.setSetupDone_height (b : Bool) : (s.setSetupDone b).height = s.height := rfl
@[simp] theorem State.setSetupDone_depth (b : Bool) : (s.setSetupDone b).depth = s.depth := rfl
@[simp] theorem State.setSetupDone_compression (b : Bool) : (s.setSetupDone b).compression = s.compression := rfl
@[simp] theorem State.setSetupDone_maskR (b : Bool) : (s.setSetupDone b).maskR = s.maskR := rfl
@[simp] theorem State.setSetupDone_maskG (b : Bool) : (s.setSetupDone b).maskG = s.maskG := rfl
@[simp] theorem State.setSetupDone_maskB (b : Bool) : (s.setSetupDone b).maskB = s.maskB := rfl
@[simp] theorem State.setSetupDone_maskA (b : Bool) : (s.setSetupDone b).maskA = s.maskA := rfl
@[simp] theorem State.setSetupDone_stride (b : Bool) : (s.setSetupDone b).stride = s.stride := rfl
@[simp] theorem State.setSetupDone_bufLen (b : Bool) : (s.setSetupDone b).bufLen = s.bufLen := rfl
@[simp] theorem State.setSetupDone_chR (b : Bool) : (s.setSetupDone b).chR = s.chR := rfl
@[simp] theorem State.setSetupDone_chG (b : Bool) : (s.setSetupDone b).chG = s.chG := rfl
@[simp] theorem State.setSetupDone_chB (b : Bool) : (s.setSetupDone b).chB = s.chB := rfl
@[simp] theorem State.setSetupDone_chA (b : Bool) : (s.setSetupDone b).chA = s.chA := rfl
@[simp] theorem State.setSetupDone_source (b : Bool) : (s.setSetupDone b).source = s.source := rfl
@[simp] theorem State.setSetupDone_output (b : Bool) : (s.setSetupDone b).output = s.output := rfl
@[simp] theorem State.setSetupDone_pending (b : Bool) : (s.setSetupDone b).pending = s.pending := rfl
@[simp] theorem State.setSetupDone_readData (b : Bool) : (s.setSetupDone b).readData = s.readData := rfl
@[simp] theorem State.setSetupDone_draws (b : Bool) : (s.setSetupDone b).draws = s.draws := rfl
@[simp] theorem State.setSetupDone_seen (b : Bool) : (s.setSetupDone b).seen = s.seen := rfl

@[simp] theorem State.setErr_arg (e : CmdError) : (s.setErr e).arg = s.arg := rfl
@[simp] theorem State.setErr_result0 (e : CmdError) : (s.setErr e).result0 = s.result0 := rfl
@[simp] theorem State.setErr_result1 (e : CmdError) : (s.setErr e).result1 = s.result1 := rfl
@[simp] theorem State.setErr_width (e : CmdError) : (s.setErr e).width = s.width := rfl
@[simp] theorem State.setErr_height (e : CmdError) : (s.setErr e).height = s.height := rfl
@[simp] theorem State.setErr_depth (e : CmdError) : (s.setErr e).depth = s.depth := rfl
@[simp] theorem State.setErr_compression (e : CmdError) : (s.setErr e).compression = s.compression := rfl
@[simp] theorem State.setErr_maskR (e : CmdError) : (s.setErr e).maskR = s.maskR := rfl
@[simp] theorem State.setErr_maskG (e : CmdError) : (s.setErr e).maskG = s.maskG := rfl
@[simp] theorem State.setErr_maskB (e : CmdError) : (s.setErr e).maskB = s.maskB := rfl
@[simp] theorem State.setErr_maskA (e : CmdError) : (s.setErr e).maskA = s.maskA := rfl
@[simp] theorem State.setErr_stride (e : CmdError) : (s.setErr e).stride = s.stride := rfl
@[simp] theorem State.setErr_bufLen (e : CmdError) : (s.setErr e).bufLen = s.bufLen := rfl
@[simp] theorem State.setErr_chR (e : CmdError) : (s.setErr e).chR = s.chR := rfl
@[simp] theorem State.setErr_chG (e : CmdError) : (s.setErr e).chG = s.chG := rfl
@[simp] theorem State.setErr_chB (e : CmdError) : (s.setErr e).chB = s.chB := rfl
@[simp] theorem State.setErr_chA (e : CmdError) : (s.setErr e).chA = s.chA := rfl
@[simp] theorem State.setErr_source (e : CmdError) : (s.setErr e).source = s.source := rfl
@[simp] theorem State.setErr_output (e : CmdError) : (s.setErr e).output = s.output := rfl
@[simp] theorem State.setErr_pending (e : CmdError) : (s.setErr e).pending = s.pending := rfl
@[simp] theorem State.setErr_readData (e : CmdError) : (s.setErr e).readData = s.readData := rfl
@[simp] theorem State.setErr_draws (e : CmdError) : (s.setErr e).draws = s.draws := rfl
@[simp] theorem State.setErr_seen (e : CmdError) : (s.setErr e).seen = s.seen := rfl

@[simp] theorem State.setReason_arg (r : Reason) : (s.setReason r).arg = s.arg := rfl
@[simp] theorem State.setReason_result0 (r : Reason) : (s.setReason r).result0 = s.result0 := rfl
@[simp] theorem State.setReason_result1 (r : Reason) : (s.setReason r).result1 = s.result1 := rfl
@[simp] theorem State.setReason_width (r : Reason) : (s.setReason r).width = s.width := rfl
@[simp] theorem State.setReason_height (r : Reason) : (s.setReason r).height = s.height := rfl
@[simp] theorem State.setReason_depth (r : Reason) : (s.setReason r).depth = s.depth := rfl
@[simp] theorem State.setReason_compression (r : Reason) : (s.setReason r).compression = s.compression := rfl
@[simp] theorem State.setReason_maskR (r : Reason) : (s.setReason r).maskR = s.maskR := rfl
@[simp] theorem State.setReason_maskG (r : Reason) : (s.setReason r).maskG = s.maskG := rfl
@[simp] theorem State.setReason_maskB (r : Reason) : (s.setReason r).maskB = s.maskB := rfl
@[simp] theorem State.setReason_maskA (r : Reason) : (s.setReason r).maskA = s.maskA := rfl
@[simp] theorem State.setReason_stride (r : Reason) : (s.setReason r).stride = s.stride := rfl
@[simp] theorem State.setReason_bufLen (r : Reason) : (s.setReason r).bufLen = s.bufLen := rfl
@[simp] theorem State.setReason_chR (r : Reason) : (s.setReason r).chR = s.chR := rfl
@[simp] theorem State.setReason_chG (r : Reason) : (s.setReason r).chG = s.chG := rfl
@[simp] theorem State.setReason_chB (r : Reason) : (s.setReason r).chB = s.chB := rfl
@[simp] theorem State.setReason_chA (r : Reason) : (s.setReason r).chA = s.chA := rfl
@[simp] theorem State.setReason_source (r : Reason) : (s.setReason r).source = s.source := rfl
@[simp] theorem State.setReason_output (r : Reason) : (s.setReason r).output = s.output := rfl
@[simp] theorem State.setReason_pending (r : Reason) : (s.setReason r).pending = s.pending := rfl
@[simp] theorem State.setReason_readData (r : Reason) : (s.setReason r).readData = s.readData := rfl
@[simp] theorem State.setReason_draws (r : Reason) : (s.setReason r).draws = s.draws := rfl
@[simp] theorem State.setReason_seen (r : Reason) : (s.setReason r).seen = s.seen := rfl

@[simp] theorem State.endSession_arg : (s.endSession).arg = s.arg := rfl
@[simp] theorem State.endSession_result0 : (s.endSession).result0 = s.result0 := rfl
@[simp] theorem State.endSession_result1 : (s.endSession).result1 = s.result1 := rfl
@[simp] theorem State.endSession_width : (s.endSession).width = s.width := rfl
@[simp] theorem State.endSession_height : (s.endSession).height = s.height := rfl
@[simp] theorem State.endSession_depth : (s.endSession).depth = s.depth := rfl
@[simp] theorem State.endSession_compression : (s.endSession).compression = s.compression := rfl
@[simp] theorem State.endSession_maskR : (s.endSession).maskR = s.maskR := rfl
@[simp] theorem State.endSession_maskG : (s.endSession).maskG = s.maskG := rfl
@[simp] theorem State.endSession_maskB : (s.endSession).maskB = s.maskB := rfl
@[simp] theorem State.endSession_maskA : (s.endSession).maskA = s.maskA := rfl
@[simp] theorem State.endSession_stride : (s.endSession).stride = s.stride := rfl
@[simp] theorem State.endSession_bufLen : (s.endSession).bufLen = s.bufLen := rfl
@[simp] theorem State.endSession_chR : (s.endSession).chR = s.chR := rfl
@[simp] theorem State.endSession_chG : (s.endSession).chG = s.chG := rfl
@[simp] theorem State.endSession_chB : (s.endSession).chB = s.chB := rfl
@[simp] theorem State.endSession_chA : (s.endSession).chA = s.chA := rfl
@[simp] theorem State.endSession_source : (s.endSession).source = s.source := rfl
@[simp] theorem State.endSession_output : (s.endSession).output = s.output := rfl
@[simp] theorem State.endSession_pending : (s.endSession).pending = s.pending := rfl
@[simp] theorem State.endSession_readData : (s.endSession).readData = s.readData := rfl
@[simp] theorem State.endSession_draws : (s.endSession).draws = s.draws := rfl
@[simp] theorem State.endSession_seen : (s.endSession).seen = s.seen := rfl

@[simp] theorem State.returning_arg (v : Word) : (s.returning v).arg = s.arg := rfl
@[simp] theorem State.returning_status (v : Word) : (s.returning v).status = s.status := rfl
@[simp] theorem State.returning_result0 (v : Word) : (s.returning v).result0 = s.result0 := rfl
@[simp] theorem State.returning_result1 (v : Word) : (s.returning v).result1 = s.result1 := rfl
@[simp] theorem State.returning_width (v : Word) : (s.returning v).width = s.width := rfl
@[simp] theorem State.returning_height (v : Word) : (s.returning v).height = s.height := rfl
@[simp] theorem State.returning_depth (v : Word) : (s.returning v).depth = s.depth := rfl
@[simp] theorem State.returning_compression (v : Word) : (s.returning v).compression = s.compression := rfl
@[simp] theorem State.returning_maskR (v : Word) : (s.returning v).maskR = s.maskR := rfl
@[simp] theorem State.returning_maskG (v : Word) : (s.returning v).maskG = s.maskG := rfl
@[simp] theorem State.returning_maskB (v : Word) : (s.returning v).maskB = s.maskB := rfl
@[simp] theorem State.returning_maskA (v : Word) : (s.returning v).maskA = s.maskA := rfl
@[simp] theorem State.returning_stride (v : Word) : (s.returning v).stride = s.stride := rfl
@[simp] theorem State.returning_bufLen (v : Word) : (s.returning v).bufLen = s.bufLen := rfl
@[simp] theorem State.returning_chR (v : Word) : (s.returning v).chR = s.chR := rfl
@[simp] theorem State.returning_chG (v : Word) : (s.returning v).chG = s.chG := rfl
@[simp] theorem State.returning_chB (v : Word) : (s.returning v).chB = s.chB := rfl
@[simp] theorem State.returning_chA (v : Word) : (s.returning v).chA = s.chA := rfl
@[simp] theorem State.returning_source (v : Word) : (s.returning v).source = s.source := rfl
@[simp] theorem State.returning_output (v : Word) : (s.returning v).output = s.output := rfl
@[simp] theorem State.returning_pending (v : Word) : (s.returning v).pending = s.pending := rfl
@[simp] theorem State.returning_draws (v : Word) : (s.returning v).draws = s.draws := rfl
@[simp] theorem State.returning_seen (v : Word) : (s.returning v).seen = s.seen := rfl

@[simp] theorem State.returning_readData (v : Word) : (s.returning v).readData = v := rfl

@[simp] theorem coreReset_arg : (coreReset s).arg = 0 := rfl
@[simp] theorem coreReset_status : (coreReset s).status = 0 := rfl
@[simp] theorem coreReset_result0 : (coreReset s).result0 = 0 := rfl
@[simp] theorem coreReset_result1 : (coreReset s).result1 = 0 := rfl
@[simp] theorem coreReset_width : (coreReset s).width = 0 := rfl
@[simp] theorem coreReset_height : (coreReset s).height = 0 := rfl
@[simp] theorem coreReset_depth : (coreReset s).depth = 0 := rfl
@[simp] theorem coreReset_compression : (coreReset s).compression = 0 := rfl
@[simp] theorem coreReset_maskR : (coreReset s).maskR = 0 := rfl
@[simp] theorem coreReset_maskG : (coreReset s).maskG = 0 := rfl
@[simp] theorem coreReset_maskB : (coreReset s).maskB = 0 := rfl
@[simp] theorem coreReset_maskA : (coreReset s).maskA = 0 := rfl
@[simp] theorem coreReset_stride : (coreReset s).stride = 0 := rfl
@[simp] theorem coreReset_bufLen : (coreReset s).bufLen = 0 := rfl
@[simp] theorem coreReset_chR : (coreReset s).chR = 0 := rfl
@[simp] theorem coreReset_chG : (coreReset s).chG = 0 := rfl
@[simp] theorem coreReset_chB : (coreReset s).chB = 0 := rfl
@[simp] theorem coreReset_chA : (coreReset s).chA = 0 := rfl
@[simp] theorem coreReset_source : (coreReset s).source = s.source := rfl
@[simp] theorem coreReset_output : (coreReset s).output = s.output := rfl
@[simp] theorem coreReset_pending : (coreReset s).pending = s.pending := rfl
@[simp] theorem coreReset_readData : (coreReset s).readData = s.readData := rfl
@[simp] theorem coreReset_draws : (coreReset s).draws = s.draws := rfl
@[simp] theorem coreReset_seen : (coreReset s).seen = s.seen := rfl

/-- A host store to a register keeps STATUS, the memories and the model's own fields. -/
theorem State.storeReg_keeps (v : Word) (r : Reg) :
    (s.storeReg v r).status = s.status ∧ (s.storeReg v r).source = s.source ∧ (s.storeReg v r).output = s.output
      ∧ (s.storeReg v r).pending = s.pending ∧ (s.storeReg v r).readData = s.readData
      ∧ (s.storeReg v r).seen = s.seen ∧ (s.storeReg v r).draws = s.draws := by
  cases r <;> exact ⟨rfl, rfl, rfl, rfl, rfl, rfl, rfl⟩

/-- A host store reaches an RW register and no other. -/
theorem State.storeReg_reg (v : Word) (r q : Reg) :
    (s.storeReg v r).reg q = if q = r ∧ r.access = .rw then v else s.reg q := by
  cases r <;> cases q <;> rfl

/-- The end of a session shows in STATUS alone. -/
theorem State.endSession_reg (q : Reg) (h : q ≠ .status) : s.endSession.reg q = s.reg q := by
  cases q <;> first | rfl | exact absurd rfl h

end Sys2Proof.Machine
end

