-- ==== Sys2Proof/Laws/Flags.lean ====
section
/-!
SUPPORT. The fields of STATUS after each write to one of them.
-/

namespace Sys2Proof.Machine

variable (s : State)

theorem getField_bit_ofBool (w : Word) (lo : Nat) (b : Bool) (h : lo + 1 ≤ 32) :
    (getField (setField w lo (BitVec.ofBool b)) lo 1 == 1) = b := by
  rw [getField_setField_same _ _ _ _ h]; cases b <;> rfl

@[simp] theorem State.setValid_valid (b : Bool) : (s.setValid b).valid = b := getField_bit_ofBool _ _ _ (by omega)
@[simp] theorem State.setValid_setupDone (b : Bool) : (s.setValid b).setupDone = s.setupDone := by
  simp [State.setupDone, State.setValid, getField_setField_apart]
@[simp] theorem State.setValid_err (b : Bool) : (s.setValid b).err = s.err := by
  simp [State.err, State.setValid, getField_setField_apart]
@[simp] theorem State.setValid_reason (b : Bool) : (s.setValid b).reason = s.reason := by
  simp [State.reason, State.setValid, getField_setField_apart]

@[simp] theorem State.setSetupDone_valid (b : Bool) : (s.setSetupDone b).valid = s.valid := by
  simp [State.valid, State.setSetupDone, getField_setField_apart]
@[simp] theorem State.setSetupDone_setupDone (b : Bool) : (s.setSetupDone b).setupDone = b :=
  getField_bit_ofBool _ _ _ (by omega)
@[simp] theorem State.setSetupDone_err (b : Bool) : (s.setSetupDone b).err = s.err := by
  simp [State.err, State.setSetupDone, getField_setField_apart]
@[simp] theorem State.setSetupDone_reason (b : Bool) : (s.setSetupDone b).reason = s.reason := by
  simp [State.reason, State.setSetupDone, getField_setField_apart]

@[simp] theorem State.setErr_valid (e : CmdError) : (s.setErr e).valid = s.valid := by
  simp [State.valid, State.setErr, getField_setField_apart]
@[simp] theorem State.setErr_setupDone (e : CmdError) : (s.setErr e).setupDone = s.setupDone := by
  simp [State.setupDone, State.setErr, getField_setField_apart]
@[simp] theorem State.setErr_err (e : CmdError) : (s.setErr e).err = e.code := getField_setField_same _ _ _ _ (by omega)
@[simp] theorem State.setErr_reason (e : CmdError) : (s.setErr e).reason = s.reason := by
  simp [State.reason, State.setErr, getField_setField_apart]

@[simp] theorem State.setReason_valid (r : Reason) : (s.setReason r).valid = s.valid := by
  simp [State.valid, State.setReason, getField_setField_apart]
@[simp] theorem State.setReason_setupDone (r : Reason) : (s.setReason r).setupDone = s.setupDone := by
  simp [State.setupDone, State.setReason, getField_setField_apart]
@[simp] theorem State.setReason_err (r : Reason) : (s.setReason r).err = s.err := by
  simp [State.err, State.setReason, getField_setField_apart]
@[simp] theorem State.setReason_reason (r : Reason) : (s.setReason r).reason = r.code :=
  getField_setField_same _ _ _ _ (by omega)

@[simp] theorem State.endSession_valid : s.endSession.valid = false := by simp [State.endSession]
@[simp] theorem State.endSession_setupDone : s.endSession.setupDone = false := by simp [State.endSession]
@[simp] theorem State.endSession_err : s.endSession.err = s.err := by simp [State.endSession]
@[simp] theorem State.endSession_reason : s.endSession.reason = s.reason := by simp [State.endSession]

theorem CmdError.code_le (e : CmdError) : e.code.toNat ≤ 4 := by cases e <;> decide
theorem Reason.code_le (r : Reason) : r.code.toNat ≤ 6 := by cases r <;> decide
theorem Reason.code_eq_zero (r : Reason) : r.code = 0 ↔ r = .ok := by cases r <;> decide

/-- A field write leaves the word alone outside the field. -/
theorem setField_outside (w : Word) (lo : Nat) {len : Nat} (v : BitVec len) :
    setField w lo v &&& ~~~ fieldMask lo len = w &&& ~~~ fieldMask lo len := by
  refine BitVec.eq_of_getLsbD_eq fun i hi => ?_
  simp only [BitVec.getLsbD_and, BitVec.getLsbD_not, getLsbD_setField, getLsbD_fieldMask]
  by_cases h : lo ≤ i ∧ i < lo + len ∧ i < 32
  · simp [h]
  · simp [h]

/-- An error or a completion writes ERR and no other bit of STATUS. -/
theorem setErr_kept (e : CmdError) : StatusKept 0xF00 s (s.setErr e) := by
  have h : (0xF00 : Word) = fieldMask 8 4 := by decide
  unfold StatusKept
  rw [h]; exact setField_outside _ _ _

/-- The end of a session writes VALID and SETUP_DONE and no other bit of STATUS. -/
theorem endSession_kept : StatusKept 0x3 s s.endSession := by
  refine BitVec.eq_of_getLsbD_eq fun i hi => ?_
  simp only [State.endSession, State.setValid, State.setSetupDone, BitVec.getLsbD_and, BitVec.getLsbD_not, getLsbD_setField]
  interval_cases i <;> simp

/-- VALIDATE writes the four fields of STATUS and no other bit. -/
theorem validate_kept (r : Reason) (b : Bool) :
    StatusKept 0x000F0F03 s ((((s.setReason r).setValid b).setSetupDone false).setErr .none) := by
  refine BitVec.eq_of_getLsbD_eq fun i hi => ?_
  simp only [State.setErr, State.setReason, State.setValid, State.setSetupDone, BitVec.getLsbD_and, BitVec.getLsbD_not,
    getLsbD_setField]
  interval_cases i <;> simp

/-- SETUP writes SETUP_DONE and ERR and no other bit of STATUS. -/
theorem setup_kept : StatusKept 0xF02 s ((s.setSetupDone true).setErr .none) := by
  refine BitVec.eq_of_getLsbD_eq fun i hi => ?_
  simp only [State.setErr, State.setSetupDone, BitVec.getLsbD_and, BitVec.getLsbD_not, getLsbD_setField]
  interval_cases i <;> simp

/-! Each write to a field keeps STATUS legal. -/

variable {s}

theorem StatusLegal.congr {t : State} (h : StatusLegal s) (e : t.status = s.status) : StatusLegal t := by
  simpa only [StatusLegal, State.err, State.reason, e] using h

theorem StatusLegal.setErr (h : StatusLegal s) (e : CmdError) : StatusLegal (s.setErr e) := by
  obtain ⟨a, b, c, _, d⟩ := h
  exact ⟨(getField_setField_apart _ 2 6 8 4 _ (by omega)).trans a, (getField_setField_apart _ 12 4 8 4 _ (by omega)).trans b,
    (getField_setField_apart _ 20 12 8 4 _ (by omega)).trans c, by simpa using e.code_le, by simpa using d⟩

theorem StatusLegal.setReason (h : StatusLegal s) (r : Reason) : StatusLegal (s.setReason r) := by
  obtain ⟨a, b, c, d, _⟩ := h
  exact ⟨(getField_setField_apart _ 2 6 16 4 _ (by omega)).trans a, (getField_setField_apart _ 12 4 16 4 _ (by omega)).trans b,
    (getField_setField_apart _ 20 12 16 4 _ (by omega)).trans c, by simpa using d, by simpa using r.code_le⟩

theorem StatusLegal.setValid (h : StatusLegal s) (v : Bool) : StatusLegal (s.setValid v) := by
  obtain ⟨a, b, c, d, e⟩ := h
  exact ⟨(getField_setField_apart _ 2 6 0 1 _ (by omega)).trans a, (getField_setField_apart _ 12 4 0 1 _ (by omega)).trans b,
    (getField_setField_apart _ 20 12 0 1 _ (by omega)).trans c, by simpa using d, by simpa using e⟩

theorem StatusLegal.setSetupDone (h : StatusLegal s) (v : Bool) : StatusLegal (s.setSetupDone v) := by
  obtain ⟨a, b, c, d, e⟩ := h
  exact ⟨(getField_setField_apart _ 2 6 1 1 _ (by omega)).trans a, (getField_setField_apart _ 12 4 1 1 _ (by omega)).trans b,
    (getField_setField_apart _ 20 12 1 1 _ (by omega)).trans c, by simpa using d, by simpa using e⟩

end Sys2Proof.Machine
end

