-- ==== Sys2Proof/Laws/Memory.lean ====
section
/-!
SUPPORT. Read after write, the canonical form, and what READ_ROW and the events write to a memory.
-/

namespace Sys2Proof.Machine

/-- A read after a write: the byte written at its index, the old one elsewhere. -/
@[simp] theorem Memory.byteAt_put (m : Memory) (a b : Nat) (v : Byte) :
    Memory.byteAt (Memory.put m a v) b = if b = a then some v else Memory.byteAt m b := by
  induction m with
  | nil => simp [Memory.put, Memory.byteAt]
  | cons c rest ih =>
    obtain ⟨k, u⟩ := c
    rcases Nat.lt_trichotomy k a with h | h | h
    · have hb : b = k → b ≠ a := by omega
      by_cases hk : b = k
      · simp [Memory.put, Memory.byteAt, h, hk, Nat.ne_of_lt h]
      · simp [Memory.put, Memory.byteAt, h, hk, ih]
    · subst h; by_cases hk : b = k <;> simp [Memory.put, Memory.byteAt, hk]
    · simp [Memory.put, Memory.byteAt, Nat.not_lt.mpr h.le, Nat.ne_of_lt h]

theorem State.sourceByte_congr {s t : State} {i : Nat} (h : Memory.byteAt s.source i = Memory.byteAt t.source i) :
    s.sourceByte i = t.sourceByte i := by simp only [State.sourceByte, h]

theorem State.outputByte_congr {s t : State} {j : Nat} (h : Memory.byteAt s.output j = Memory.byteAt t.output j) :
    s.outputByte j = t.outputByte j := by simp only [State.outputByte, h]

theorem Memory.mem_put {m : Memory} {a : Nat} {v : Byte} {c : Host.Cell} (h : c ∈ Memory.put m a v) : c.1 = a ∨ c ∈ m := by
  induction m with
  | nil => simp [Memory.put] at h; simp [h]
  | cons d rest ih =>
    obtain ⟨k, u⟩ := d
    simp only [Memory.put] at h
    split_ifs at h with h1 h2
    · rcases List.mem_cons.mp h with rfl | h
      · simp
      · rcases ih h with h | h <;> simp [h]
    · rcases List.mem_cons.mp h with rfl | h <;> simp [*]
    · rcases List.mem_cons.mp h with rfl | h
      · simp
      · exact .inr h

/-- A write keeps the canonical form. -/
theorem Memory.put_wf {m : Memory} (h : Memory.wf m) (a : Nat) (v : Byte) : Memory.wf (Memory.put m a v) := by
  induction m with
  | nil => simp [Memory.put]
  | cons c rest ih =>
    obtain ⟨k, u⟩ := c
    obtain ⟨hk, hr⟩ := List.pairwise_cons.mp h
    simp only [Memory.put]
    split_ifs with h1 h2
    · refine List.pairwise_cons.mpr ⟨fun d hd => ?_, ih hr⟩
      rcases Memory.mem_put hd with he | he
      · simpa [he] using h1
      · exact hk d he
    · subst h2; exact List.pairwise_cons.mpr ⟨hk, hr⟩
    · refine List.pairwise_cons.mpr ⟨fun d hd => ?_, h⟩
      rcases List.mem_cons.mp hd with rfl | hd
      · simp; omega
      · have := hk d hd; simp at this ⊢; omega

theorem Memory.putAll_wf {m : Memory} (h : Memory.wf m) (cells : List (BitVec 32 × Byte)) :
    Memory.wf (Memory.putAll m cells) := by
  induction cells generalizing m with
  | nil => exact h
  | cons c rest ih => exact ih (Memory.put_wf h _ _)

/-- Where no cell of the list lies, the byte is the old one. -/
theorem Memory.byteAt_putAll_of_notMem (cells : List (BitVec 32 × Byte)) (m : Memory) (a : Nat)
    (h : ∀ c ∈ cells, c.1.toNat ≠ a) : Memory.byteAt (Memory.putAll m cells) a = Memory.byteAt m a := by
  induction cells generalizing m with
  | nil => rfl
  | cons c rest ih =>
    have hc := h c (by simp)
    refine (ih (Memory.put m c.1.toNat c.2) fun d hd => h d (by simp [hd])).trans ?_
    simp [hc.symm]

theorem tearSource_eq_putAll (n : Nat) (changes : List (BitVec 32 × Byte)) (m : Memory) :
    tearSource n changes m = Memory.putAll m (changes.map fun c => (c.1, Config.drawByte n c.1.toNat)) := by
  simp [tearSource, Memory.putAll, List.foldl_map]

/-- The core's view of a changing source: the true byte wherever no agent writes. -/
theorem byteAt_tearSource {n : Nat} {changes : List (BitVec 32 × Byte)} (m : Memory) {i : Nat}
    (h : ∀ c ∈ changes, c.1.toNat ≠ i) : Memory.byteAt (tearSource n changes m) i = Memory.byteAt m i := by
  rw [tearSource_eq_putAll]
  refine Memory.byteAt_putAll_of_notMem _ _ _ fun c hc => ?_
  obtain ⟨d, hd, rfl⟩ := List.mem_map.mp hc
  exact h d hd

theorem writePixel_wf {m : Memory} (h : Memory.wf m) (x : Nat) (o : PixelBytes) : Memory.wf (writePixel m x o) :=
  Memory.put_wf (Memory.put_wf (Memory.put_wf (Memory.put_wf h _ _) _ _) _ _) _ _

theorem writeRow_wf {m : Memory} (h : Memory.wf m) (pixel : Nat → PixelBytes) (n : Nat) :
    Memory.wf (writeRow pixel n m) := by
  induction n with
  | zero => exact h
  | succ n ih => exact writePixel_wf ih _ _

theorem mixOutput_wf {old : Memory} (h : Memory.wf old) (draw : Nat) (new : Memory) (n : Nat) :
    Memory.wf (mixOutput draw old new n) := by
  induction n with
  | zero => exact h
  | succ n ih =>
    simp only [mixOutput]
    split
    · exact ih
    · split_ifs
      · exact Memory.put_wf ih _ _
      · exact ih

theorem length_peekBytes (old new : State) (draw : Nat) (js : List (BitVec 32)) :
    (peekBytes old new draw js).length = js.length := by
  induction js generalizing draw with
  | nil => rfl
  | cons j rest ih => simp [peekBytes, ih]

/-- Each read of another agent sees the old byte or the new one. -/
theorem peekBytes_old_or_new (old new : State) {k : Nat} {js : List (BitVec 32)} {j : BitVec 32} (draw : Nat)
    (h : js[k]? = some j) : (peekBytes old new draw js)[k]? = some (old.outputByte j.toNat)
      ∨ (peekBytes old new draw js)[k]? = some (new.outputByte j.toNat) := by
  induction js generalizing draw k with
  | nil => simp at h
  | cons i rest ih =>
    cases k with
    | zero =>
      obtain rfl : i = j := by simpa using h
      simp only [peekBytes, List.getElem?_cons_zero]
      split_ifs <;> simp
    | succ k => simpa only [peekBytes, List.getElem?_cons_succ] using ih (draw + 1) (by simpa using h)

/-- Byte `k` (0 to 3) of a pixel. -/
def PixelBytes.byte (o : PixelBytes) : Nat → Byte
  | 0 => o.o0
  | 1 => o.o1
  | 2 => o.o2
  | _ => o.o3

/-- What a row of `n` pixels leaves in memory: byte `j % 4` of pixel `j / 4` below 4n, the old byte elsewhere. -/
theorem byteAt_writeRow (pixel : Nat → PixelBytes) (n : Nat) (m : Memory) (j : Nat) :
    Memory.byteAt (writeRow pixel n m) j =
      if j < 4 * n then some ((pixel (j / 4)).byte (j % 4)) else Memory.byteAt m j := by
  induction n with
  | zero => simp [writeRow]
  | succ n ih =>
    simp only [writeRow, writePixel, memWrite, Memory.byteAt_put, ih]
    rcases Nat.lt_or_ge j (4 * n) with h | h
    · have h1 : j ≠ 4 * n + 3 := by omega
      have h2 : j ≠ 4 * n + 2 := by omega
      have h3 : j ≠ 4 * n + 1 := by omega
      have h4 : j ≠ 4 * n := by omega
      have h5 : j < 4 * (n + 1) := by omega
      simp [h1, h2, h3, h4, h5, h]
    · rcases Nat.lt_or_ge j (4 * (n + 1)) with h5 | h5
      · have hd : j / 4 = n := by omega
        obtain hr | hr | hr | hr : j % 4 = 0 ∨ j % 4 = 1 ∨ j % 4 = 2 ∨ j % 4 = 3 := by omega
        all_goals
          have hj := Nat.div_add_mod j 4
          rw [hd, hr] at hj
          subst hj
          simp [hd, hr, PixelBytes.byte, Nat.mul_add]
      · have h1 : j ≠ 4 * n + 3 := by omega
        have h2 : j ≠ 4 * n + 2 := by omega
        have h3 : j ≠ 4 * n + 1 := by omega
        have h4 : j ≠ 4 * n := by omega
        simp [h1, h2, h3, h4, Nat.not_lt.mpr h, Nat.not_lt.mpr h5]

/-- A mixed memory holds, at each index, the old byte or the new one. -/
theorem byteAt_mixOutput (draw : Nat) (old new : Memory) (n j : Nat) :
    Memory.byteAt (mixOutput draw old new n) j = Memory.byteAt old j
      ∨ (j < n ∧ Memory.byteAt (mixOutput draw old new n) j = Memory.byteAt new j ∧ (Memory.byteAt new j).isSome) := by
  induction n with
  | zero => exact .inl rfl
  | succ n ih =>
    have step : Memory.byteAt (mixOutput draw old new n) j = Memory.byteAt old j
        ∨ (j < n + 1 ∧ Memory.byteAt (mixOutput draw old new n) j = Memory.byteAt new j ∧ (Memory.byteAt new j).isSome) :=
      ih.imp id fun ⟨h1, h2⟩ => ⟨by omega, h2⟩
    simp only [mixOutput]
    split
    · exact step
    · next b hb =>
      split_ifs
      · by_cases hj : j = n
        · subst hj; exact .inr ⟨by omega, by simp [hb], by simp [hb]⟩
        · simpa [hj] using step
      · exact step

end Sys2Proof.Machine
end

