-- ==== Sys2Proof/Laws/RegMap.lean ====
section
/-!
SUPPORT. The register map both ways.
-/

namespace Sys2Proof.Machine

@[simp] theorem Reg.atOffset_offset (r : Reg) : Reg.atOffset r.offset = some r := by cases r <;> decide

theorem Reg.offset_of_atOffset {o : WordOffset} {r : Reg} (h : Reg.atOffset o = some r) : o = r.offset := by
  have hr := List.find?_some h
  have hb : r.byteOffset = 4 * o.toNat := by simpa using hr
  rw [Reg.offset, hb]
  exact BitVec.eq_of_toNat_eq (by simp)

/-- The offsets from 0x4C on are unmapped (10_state.md R10). -/
theorem Reg.atOffset_eq_none_iff (o : WordOffset) : Reg.atOffset o = none ↔ 0x4C ≤ 4 * o.toNat := by
  revert o; decide

end Sys2Proof.Machine
end

