-- ==== Sys2Proof/Laws/Exec.lean ====
section
/-!
SUPPORT. What a command, and what a step, can do: said once.
-/

namespace Sys2Proof.Machine

/-- No command stops the machine. -/
theorem exec_next (i : Instr) (s : State) : ∃ t, exec i s = .next t := by
  cases i with
  | nop => exact ⟨_, rfl⟩
  | validate => exact ⟨_, rfl⟩
  | setup => simp only [exec, execSetup]; split_ifs <;> exact ⟨_, rfl⟩
  | readrow ord => simp only [exec, execReadrow]; split_ifs <;> exact ⟨_, rfl⟩
  | bfdec => exact ⟨_, rfl⟩
  | lutrd => simp only [exec, execLutrd]; split_ifs <;> exact ⟨_, rfl⟩

theorem execute_next (c : Word) (s : State) : ∃ t, execute c s = .next t := by
  unfold execute
  split
  · exact exec_next _ _
  · exact ⟨_, rfl⟩

/-- What each command does, as the state it leaves. -/
theorem exec_cases {i : Instr} {s t : State} (h : exec i s = .next t) :
    (i = .nop ∧ t = s.setErr .none)
    ∨ (i = .validate ∧ t = (((s.setReason (validateFormat s)).setValid (validateFormat s == .ok)).setSetupDone false).setErr .none)
    ∨ (i = .setup ∧ s.valid = false ∧ t = s.setErr .notValid)
    ∨ (i = .setup ∧ s.valid = true ∧ t = ({ s with
          chR := pack (resolve (masksInForce s).red), chG := pack (resolve (masksInForce s).green),
          chB := pack (resolve (masksInForce s).blue), chA := pack (resolve (masksInForce s).alpha) }.setSetupDone true).setErr .none)
    ∨ (∃ o, i = .readrow o ∧ s.setupDone = false ∧ t = s.setErr .notSetup)
    ∨ (∃ o, i = .readrow o ∧ s.setupDone = true
        ∧ t = { s with output := writeRow (rowPixel s o) s.rowPixels s.output }.setErr .none)
    ∨ (i = .bfdec ∧ t = { s with
          result0 := (decodeMask s.arg).2, result1 := bfdecResult1 (decodeMask s.arg).1 (decodeMask s.arg).2 }.setErr .none)
    ∨ (i = .lutrd ∧ lutOperandLegal s.arg = false ∧ t = s.setErr .badArg)
    ∨ (i = .lutrd ∧ lutOperandLegal s.arg = true ∧ t = { s with
          result0 := (lut (lutWidthOperand s.arg) (lutIndexOperand s.arg)).setWidth 32, result1 := 0 }.setErr .none) := by
  cases i with
  | nop => cases h; exact .inl ⟨rfl, rfl⟩
  | validate => cases h; exact .inr (.inl ⟨rfl, rfl⟩)
  | setup =>
    simp only [exec, execSetup] at h
    split_ifs at h with hv <;> cases h
    · exact .inr (.inr (.inr (.inl ⟨rfl, hv, rfl⟩)))
    · exact .inr (.inr (.inl ⟨rfl, by simpa using hv, rfl⟩))
  | readrow o =>
    simp only [exec, execReadrow] at h
    split_ifs at h with hv <;> cases h
    · exact .inr (.inr (.inr (.inr (.inr (.inl ⟨o, rfl, hv, rfl⟩)))))
    · exact .inr (.inr (.inr (.inr (.inl ⟨o, rfl, by simpa using hv, rfl⟩))))
  | bfdec => cases h; exact .inr (.inr (.inr (.inr (.inr (.inr (.inl ⟨rfl, rfl⟩))))))
  | lutrd =>
    simp only [exec, execLutrd] at h
    split_ifs at h with hv <;> cases h
    · exact .inr (.inr (.inr (.inr (.inr (.inr (.inr (.inr ⟨rfl, hv, rfl⟩)))))))
    · exact .inr (.inr (.inr (.inr (.inr (.inr (.inr (.inl ⟨rfl, by simpa using hv, rfl⟩)))))))

/-- A command changes no RW register, no source byte and none of the model's own fields. -/
theorem exec_keeps {i : Instr} {s t : State} (h : exec i s = .next t) :
    (∀ r : Reg, r.access = .rw → t.reg r = s.reg r)
      ∧ t.source = s.source ∧ t.pending = s.pending ∧ t.readData = s.readData ∧ t.seen = s.seen
      ∧ t.draws = s.draws := by
  rcases exec_cases h with ⟨-, rfl⟩ | ⟨-, rfl⟩ | ⟨-, -, rfl⟩ | ⟨-, -, rfl⟩ | ⟨_, -, -, rfl⟩ | ⟨_, -, -, rfl⟩ | ⟨-, rfl⟩
      | ⟨-, -, rfl⟩ | ⟨-, -, rfl⟩ <;>
    refine ⟨fun r hr => ?_, rfl, rfl, rfl, rfl, rfl⟩ <;> cases r <;> first | rfl | exact absurd hr (by decide)

/-- The same for a command word, legal or not. -/
theorem execute_cases {c : Word} {s t : State} (h : execute c s = .next t) :
    (∃ i, decode c = .ok i ∧ exec i s = .next t) ∨ ((∃ e, decode c = .error e) ∧ t = s.setErr .illegalCmd) := by
  unfold execute at h
  split at h
  · next i hi => exact .inl ⟨i, hi, h⟩
  · next e he => cases h; exact .inr ⟨⟨e, he⟩, rfl⟩

/-! The step by the head of the list, and the register window by name. -/

theorem step_of_cons {s : State} {op : HostOp} {rest : List HostOp} (h : s.pending = op :: rest) :
    step s = perform op { s with pending := rest } := by simp only [step, h]

@[simp] theorem busWrite_cmd (v : Word) (s : State) : busWrite Reg.cmd.offset v s = execute v s := by simp [busWrite]

theorem busWrite_reg {r : Reg} (h : r ≠ .cmd) (v : Word) (s : State) : busWrite r.offset v s = .next (hostStore r v s) := by
  unfold busWrite
  rw [Reg.atOffset_offset]
  cases r <;> first | rfl | exact absurd rfl h

@[simp] theorem busRead_reg (r : Reg) (s : State) : busRead r.offset s = s.reg r := by simp [busRead]

/-- The state a disturbed command leaves, from the one its command leaves. -/
theorem disturbed_of {c : Word} {d : Disturbance} {s u : State}
    (h : execute c { s with source := tearSource s.draws d.changes s.source } = .next u) :
    disturbed c d s = .next { (if d.cut then { coreReset s with output := mixOutput s.draws s.output u.output (4 * s.rowPixels) }
        else u) with
      source := Memory.putAll s.source d.changes
      seen := peekBytes s u (s.draws + 1) d.reads
      draws := s.draws + 1 + d.reads.length } := by
  simp only [disturbed, h, andThen]

/-- What one step can do: nothing without a transaction, a command word, or the host's other transactions and events. -/
theorem step_cases {s t : State} (h : step s = .next t) :
    (s.pending = [] ∧ t = s)
    ∨ (∃ rest, ∃ s₀, s₀ = { s with pending := rest } ∧
        ((∃ c, s.pending = .regWrite Reg.cmd.offset c :: rest ∧ execute c s₀ = .next t)
        ∨ (∃ r v, r ≠ Reg.cmd ∧ s.pending = .regWrite r.offset v :: rest ∧ t = hostStore r v s₀)
        ∨ (∃ o v, Reg.atOffset o = none ∧ s.pending = .regWrite o v :: rest ∧ t = s₀)
        ∨ (∃ o, s.pending = .regRead o :: rest ∧ t = s₀.returning (busRead o s₀))
        ∨ (∃ i b, s.pending = .sourceStore i b :: rest ∧ t = { s₀ with source := Memory.put s.source i.toNat b })
        ∨ (∃ i, s.pending = .sourceLoad i :: rest ∧ t = s₀.returning ((s.sourceByte i.toNat).setWidth 32))
        ∨ (∃ j b, s.pending = .outputStore j b :: rest ∧ t = { s₀ with output := Memory.put s.output j.toNat b })
        ∨ (∃ j, s.pending = .outputLoad j :: rest ∧ t = s₀.returning ((s.outputByte j.toNat).setWidth 32))
        ∨ (s.pending = .reset :: rest ∧ t = coreReset s₀)
        ∨ (∃ c d u, s.pending = .disturbed c d :: rest
            ∧ execute c { s₀ with source := tearSource s.draws d.changes s.source } = .next u
            ∧ t = { (if d.cut then { coreReset s₀ with output := mixOutput s.draws s.output u.output (4 * s.rowPixels) } else u) with
              source := Memory.putAll s.source d.changes
              seen := peekBytes s₀ u (s.draws + 1) d.reads
              draws := s.draws + 1 + d.reads.length }))) := by
  unfold step at h
  cases hp : s.pending with
  | nil => rw [hp] at h; cases h; exact .inl ⟨rfl, rfl⟩
  | cons op rest =>
    rw [hp] at h
    refine .inr ⟨rest, _, rfl, ?_⟩
    cases op with
    | regWrite o v =>
      simp only [perform, busWrite] at h
      split at h
      · next ho => cases h; exact .inr (.inr (.inl ⟨o, v, ho, rfl, rfl⟩))
      · next ho =>
        obtain rfl := Reg.offset_of_atOffset ho
        exact .inl ⟨v, rfl, h⟩
      · next r hr ho =>
        cases h
        obtain rfl := Reg.offset_of_atOffset ho
        exact .inr (.inl ⟨r, v, hr, rfl, rfl⟩)
    | regRead o => cases h; exact .inr (.inr (.inr (.inl ⟨o, rfl, rfl⟩)))
    | sourceStore i b => cases h; exact .inr (.inr (.inr (.inr (.inl ⟨i, b, rfl, rfl⟩))))
    | sourceLoad i => cases h; exact .inr (.inr (.inr (.inr (.inr (.inl ⟨i, rfl, rfl⟩)))))
    | outputStore j b => cases h; exact .inr (.inr (.inr (.inr (.inr (.inr (.inl ⟨j, b, rfl, rfl⟩))))))
    | outputLoad j => cases h; exact .inr (.inr (.inr (.inr (.inr (.inr (.inr (.inl ⟨j, rfl, rfl⟩)))))))
    | reset => cases h; exact .inr (.inr (.inr (.inr (.inr (.inr (.inr (.inr (.inl ⟨rfl, rfl⟩))))))))
    | disturbed c d =>
      obtain ⟨u, hu⟩ := execute_next c { s with pending := rest, source := tearSource s.draws d.changes s.source }
      cases (disturbed_of hu).symm.trans h
      exact .inr (.inr (.inr (.inr (.inr (.inr (.inr (.inr (.inr ⟨c, d, u, rfl, hu, rfl⟩))))))))

end Sys2Proof.Machine
end

