-- ==== Sys2Proof/Laws/Format.lean ====
section
/-!
SUPPORT. The format registers as the validator and the resolver read them, and what SETUP makes of a mask.
-/

namespace Sys2Proof.Machine

theorem natAbs_height_iff (h : Word) : 2 ^ 30 < h.toInt.natAbs ↔ 2 ^ 30 < h.toInt ∨ h.toInt < -2 ^ 30 := by omega

theorem depth_unsupported_iff (d : Word) : (zext32 d ≠ 16 ∧ zext32 d ≠ 24 ∧ zext32 d ≠ 32) ↔ d ∉ [(16 : Word), 24, 32] := by
  simp only [zext32, List.mem_cons, List.not_mem_nil, or_false, not_or, ne_eq, ← BitVec.toNat_inj]; rfl

theorem compression_unsupported_iff (c : Word) :
    (zext32 c ≠ uncompressed ∧ zext32 c ≠ bitFields) ↔ c ∉ [(0 : Word), 3] := by
  simp only [zext32, List.mem_cons, List.not_mem_nil, or_false, not_or, ne_eq, ← BitVec.toNat_inj]; rfl

theorem bitFields_iff (c : Word) : zext32 c = bitFields ↔ c = 3 := by rw [← BitVec.toNat_inj]; rfl

theorem depth16_iff (d : Word) : zext32 d = 16 ↔ d = 16 := by rw [← BitVec.toNat_inj]; rfl

theorem maskTooWide_iff (m : Word) : maskTooWide m = true ↔ ¬ (decodeMask m).2.toNat ≤ 0xFF := by
  have := bitlen32_le_iff (decodeMask m).2 8
  simp only [maskTooWide, decide_eq_true_eq]
  omega

/-- VALIDATE's verdict is OK exactly on the accepted formats. -/
theorem validateFormat_ok_iff (s : State) : validateFormat s = .ok ↔ FormatAccepted s := by
  unfold validateFormat FormatAccepted
  simp only [State.imageWidth, State.imageHeight, State.depthBits, State.compressionCode, sext32, natAbs_height_iff,
    depth_unsupported_iff, compression_unsupported_iff, bitFields_iff, List.any_eq_true, maskTooWide_iff]
  constructor
  · intro h
    split_ifs at h with h1 h2 h3 h4 h5 h6
    refine ⟨by omega, by omega, by omega, by omega, by simpa using h4, by simpa using h5, fun h7 m hm => ?_⟩
    by_contra hc
    exact h6 ⟨h7, m, hm, hc⟩
  · rintro ⟨h1, h2, h3, h4, h5, h6, h7⟩
    rw [if_neg (by omega), if_neg (by omega), if_neg (by omega), if_neg (not_not.mpr (by simpa using h5)),
      if_neg (not_not.mpr (by simpa using h6)), if_neg]
    rintro ⟨ha, m, hm, hb⟩
    exact hb (h7 ha m hm)

/-- The masks in force, with the registers' values compared as words. -/
theorem masksInForce_eq (s : State) : masksInForce s =
    if s.compression = 3 then ⟨s.maskR, s.maskG, s.maskB, s.maskA⟩
    else if s.depth = 16 then ⟨0x00007C00, 0x000003E0, 0x0000001F, 0x00000000⟩
    else ⟨0x00FF0000, 0x0000FF00, 0x000000FF, 0x00000000⟩ := by
  simp only [masksInForce, State.compressionCode, State.depthBits, bitFields_iff, depth16_iff]

/-- The CH register SETUP writes for a mask. -/
theorem describesMask_pack_resolve (m : Word) : DescribesMask (pack (resolve m)) m := by
  refine ⟨fun h => by subst h; decide, fun lo hlo => ?_⟩
  have hd := decodeMask_of_lowest hlo
  have hl := hlo.lt
  have hw : (m >>> lo).toNat ≤ 0xFF → popcount32 (m >>> lo) ≤ 8 := by
    intro h
    rw [← setBits_eq_popcount32]
    refine le_trans (Finset.card_le_card (t := Finset.range 8) fun i hi => ?_) (by simp)
    simp only [Finset.mem_filter, Finset.mem_range] at hi ⊢
    by_contra hc
    have hx := hi.2
    rw [BitVec.getLsbD, Nat.testBit_lt_two_pow (lt_of_le_of_lt h
      (lt_of_lt_of_le (by decide : 255 < 2 ^ 8) (Nat.pow_le_pow_right (by omega) (by omega))))] at hx
    cases hx
  refine ⟨?_, ?_, fun h => ?_, ?_, pack_reserved _⟩
  · rw [chShift_pack]; simp only [resolve, hd]; simp; omega
  · rw [chMask_pack]; simp only [resolve, hd]
  · rw [chWidth_pack]; simp only [resolve, hd]; have := hw h; have e := popcount32_shift hlo; simp; omega
  · rw [chBound_pack]; simp only [resolve, hd]
    refine ⟨fun h => ?_, fun ⟨w, a, b, c⟩ => bindable_of_width a b c⟩
    obtain ⟨w, a, b, c, _⟩ := bindable_width h; exact ⟨w, a, b, c⟩

end Sys2Proof.Machine
end

