-- ==== Sys2Proof/Laws/PerInstr.lean ====
section
/-!
SUPPORT. The family CommandWord: what the command word of each instruction looks like (30_encoding.md R60 to R62).
-/

namespace Sys2Proof.Laws.CommandWord

/-- The word keeps the reserved bits 31:5 at 0, has an operation code below 0x6, and sets ORD for READ_ROW alone. -/
def Statement (i : Instr) : Prop :=
  rsvField (encode i) = 0 ∧ (opField (encode i)).toNat < 6 ∧ (ordField (encode i) = 1 → ∃ o, i = .readrow o)

theorem nop : Statement .nop := ⟨rfl, by decide, fun h => absurd h (by decide)⟩
theorem validate : Statement .validate := ⟨rfl, by decide, fun h => absurd h (by decide)⟩
theorem setup : Statement .setup := ⟨rfl, by decide, fun h => absurd h (by decide)⟩
theorem readrow (ord : Order) : Statement (.readrow ord) :=
  ⟨rsvField_encode _, by cases ord <;> decide, fun _ => ⟨ord, rfl⟩⟩
theorem bfdec : Statement .bfdec := ⟨rfl, by decide, fun h => absurd h (by decide)⟩
theorem lutrd : Statement .lutrd := ⟨rfl, by decide, fun h => absurd h (by decide)⟩

end Sys2Proof.Laws.CommandWord
end

