-- ==== Sys2Proof/Laws/Row.lean ====
section
/-!
SUPPORT. A pixel's bytes and its fetch as numbers, what a fetch depends on, and the bytes a READ_ROW leaves.
-/

namespace Sys2Proof.Machine

theorem toNat_append_bytes {m n : Nat} (x : BitVec m) (y : BitVec n) : (x ++ y).toNat = x.toNat * 2 ^ n + y.toNat := by
  rw [BitVec.toNat_append, ← Nat.shiftLeft_add_eq_or_of_lt y.isLt, Nat.shiftLeft_eq]

/-- The packed word is the little-endian sum of its bytes. -/
theorem toNat_packLittleEndian (b0 b1 b2 b3 : Byte) : (packLittleEndian b0 b1 b2 b3).toNat =
    b0.toNat + b1.toNat * 256 + b2.toNat * 65536 + b3.toNat * 16777216 := by
  have e : packLittleEndian b0 b1 b2 b3 = b3 ++ b2 ++ b1 ++ b0 := by
    refine BitVec.eq_of_getLsbD_eq fun i hi => ?_
    simp only [packLittleEndian, BitVec.getLsbD_or, BitVec.getLsbD_shiftLeft, BitVec.getLsbD_setWidth, BitVec.getLsbD_append]
    interval_cases i <;> simp
  rw [e, toNat_append_bytes, toNat_append_bytes, toNat_append_bytes]
  omega

/-- The core's byte at an index that is not negative. -/
theorem toNat_srcByte (s : State) (o k : Nat) :
    (srcByte s ((o : Int) + k)).toNat = if o + k < s.bufLen.toNat then (s.sourceByte (o + k)).toNat else 0 := by
  have hl : s.bufferLength = s.bufLen.toNat := rfl
  unfold srcByte
  by_cases h : o + k < s.bufLen.toNat
  · rw [if_pos (by omega), if_pos h, show ((o : Int) + k).toNat = o + k by omega]
  · rw [if_neg (by omega), if_neg h]; rfl

/-- A fetch depends on DEPTH, BUF_LEN and the source bytes of the pixel inside the buffer. -/
theorem fetchPixel_congr {s s' : State} (off : Int) (hd : s.depth = s'.depth) (hb : s.bufLen = s'.bufLen)
    (h : ∀ k : Nat, k < s.bpp → ∀ i : Nat, off + k = i → i < s.bufLen.toNat → s.sourceByte i = s'.sourceByte i) :
    fetchPixel s off = fetchPixel s' off := by
  have e1 : s'.bpp = s.bpp := by simp only [State.bpp, State.depthBits, hd]
  have e2 : s'.bufferLength = s.bufferLength := by simp only [State.bufferLength, hb]
  have e3 : s.bufferLength = s.bufLen.toNat := rfl
  have hs : ∀ k : Nat, k < s.bpp → srcByte s (off + k) = srcByte s' (off + k) := by
    intro k hk
    unfold srcByte
    rw [e2]
    split_ifs with h'
    · exact h k hk _ (by omega) (by omega)
    · rfl
  have a0 := hs 0; have a1 := hs 1; have a2 := hs 2; have a3 := hs 3
  simp only [Nat.cast_zero, add_zero, Nat.cast_one, Nat.cast_ofNat] at a0 a1 a2 a3
  have hm : memRead s off s.bpp = memRead s' off s.bpp := by
    generalize s.bpp = n at *
    unfold memRead
    split_ifs with h2 h3 h4
    · rw [a0 (by omega), a1 (by omega)]
    · rw [a0 (by omega), a1 (by omega), a2 (by omega)]
    · rw [a0 (by omega), a1 (by omega), a2 (by omega), a3 (by omega)]
    · rfl
  unfold fetchPixel
  rw [e1, e2, hm]

/-- What the four bytes of a pixel depend on. -/
theorem rowPixel_congr {s s' : State} (ord : Order) (x : Nat) (hh : s.height = s'.height) (hd : s.depth = s'.depth)
    (hst : s.stride = s'.stride) (hb : s.bufLen = s'.bufLen) (ha : s.arg = s'.arg) (hr : s.chR = s'.chR) (hg : s.chG = s'.chG)
    (hbl : s.chB = s'.chB)
    (hm : ∀ k : Nat, k < s.bpp → ∀ i : Nat, pixelOffset s x + k = i → i < s.bufLen.toNat → s.sourceByte i = s'.sourceByte i) :
    rowPixel s ord x = rowPixel s' ord x := by
  have ho : pixelOffset s x = pixelOffset s' x := by
    simp only [pixelOffset, State.rowOperand, State.imageHeight, State.strideBytes, State.bpp, State.depthBits, hh, hd, hst, ha]
  simp only [rowPixel, pixelBytes, hr, hg, hbl]
  rw [← ho, fetchPixel_congr _ hd hb hm]

/-- READ_ROW with SETUP_DONE = 1. -/
theorem exec_readrow {s : State} (ord : Order) (h : s.setupDone = true) : exec (.readrow ord) s =
    .next ({ s with output := writeRow (rowPixel s ord) s.rowPixels s.output }.setErr .none) := if_pos h

/-- The output bytes of a READ_ROW: byte `j % 4` of pixel `j / 4` below 4*WIDTH, the old byte from there on. -/
theorem outputByte_readrow (s : State) (ord : Order) (j : Nat) :
    ((j : Int) < 4 * s.width.toInt →
      ({ s with output := writeRow (rowPixel s ord) s.rowPixels s.output }.setErr .none).outputByte j
        = (rowPixel s ord (j / 4)).byte (j % 4))
    ∧ (4 * s.width.toInt ≤ j →
      ({ s with output := writeRow (rowPixel s ord) s.rowPixels s.output }.setErr .none).outputByte j = s.outputByte j) := by
  have hb := byteAt_writeRow (rowPixel s ord) s.rowPixels s.output j
  have hr : s.rowPixels = s.width.toInt.toNat := rfl
  simp only [State.outputByte, State.setErr_output, hb]
  refine ⟨fun h => ?_, fun h => ?_⟩
  · rw [if_pos (by omega)]; rfl
  · rw [if_neg (by omega)]

end Sys2Proof.Machine
end

