-- ==== Sys2Proof/Laws/Scale.lean ====
section
/-!
SUPPORT. The scale tables, LUTRD's operand, and the extraction of a channel, as numbers.
-/

namespace Sys2Proof.Machine

theorem lutOperandLegal_iff (a : Word) : lutOperandLegal a = true ↔
    a.extractLsb' 4 4 = 0 ∧ a.extractLsb' 16 16 = 0 ∧ 1 ≤ (a.extractLsb' 0 4).toNat ∧ (a.extractLsb' 0 4).toNat ≤ 8
      ∧ (a.extractLsb' 8 8).toNat < 2 ^ (a.extractLsb' 0 4).toNat := by
  simp only [lutOperandLegal, Bool.and_eq_true, beq_iff_eq, decide_eq_true_eq, and_assoc]
  rfl

/-- The legal operands are the numbers I * 256 + W. -/
theorem lutOperandLegal_iff_toNat (a : Word) :
    lutOperandLegal a = true ↔ ∃ w i, 1 ≤ w ∧ w ≤ 8 ∧ i < 2 ^ w ∧ a.toNat = i * 256 + w := by
  have e1 : (a.extractLsb' 0 4).toNat = a.toNat % 16 := by simp
  have e2 : (a.extractLsb' 8 8).toNat = a.toNat / 256 % 256 := by simp [Nat.shiftRight_eq_div_pow]
  have e3 : a.extractLsb' 4 4 = 0 ↔ a.toNat / 16 % 16 = 0 := by
    rw [← BitVec.toNat_inj]; simp [Nat.shiftRight_eq_div_pow]
  have e4 : a.extractLsb' 16 16 = 0 ↔ a.toNat / 65536 % 65536 = 0 := by
    rw [← BitVec.toNat_inj]; simp [Nat.shiftRight_eq_div_pow]
  have ha := a.isLt
  rw [lutOperandLegal_iff, e1, e2, e3, e4]
  constructor
  · rintro ⟨h1, h2, h3, h4, h5⟩
    exact ⟨a.toNat % 16, a.toNat / 256 % 256, h3, h4, h5, by omega⟩
  · rintro ⟨w, i, h1, h8, hi, ha'⟩
    have : 2 ^ w ≤ 2 ^ 8 := Nat.pow_le_pow_right (by omega) h8
    have hw : a.toNat % 16 = w := by omega
    have hi' : a.toNat / 256 % 256 = i := by omega
    rw [hw, hi']
    exact ⟨by omega, by omega, h1, h8, hi⟩

/-- An entry of a table as a number: nothing is lost in its 8 bits. -/
theorem toNat_lut {w i : Nat} (h1 : 1 ≤ w) (h8 : w ≤ 8) (hi : i < 2 ^ w) : (lut w i).toNat = i * 255 / (2 ^ w - 1) := by
  have hp : 2 ^ 1 ≤ 2 ^ w := Nat.pow_le_pow_right (by omega) h1
  have : i * 255 / (2 ^ w - 1) < 256 := by
    rw [Nat.div_lt_iff_lt_mul (by omega)]
    calc i * 255 ≤ (2 ^ w - 1) * 255 := Nat.mul_le_mul_right _ (by omega)
      _ < 256 * (2 ^ w - 1) := by omega
  simp only [lut, lutDefined, h1, h8, hi, decide_true, Bool.and_true, if_true, BitVec.toNat_ofNat]
  exact Nat.mod_eq_of_lt this

/-- The raw value of a channel whose mask is a run of `w` ones. -/
theorem toNat_extract (p : Word) {ch : Word} {w : Nat} (h : (chMask ch).toNat = 2 ^ w - 1) (hw : w ≤ 8) :
    (extract p ch).toNat = p.toNat / 2 ^ (chShift ch).toNat % 2 ^ w := by
  have : 2 ^ w ≤ 2 ^ 8 := Nat.pow_le_pow_right (by omega) hw
  have := (chMask ch).isLt
  unfold extract
  rw [BitVec.toNat_and, BitVec.toNat_ushiftRight, BitVec.toNat_setWidth, Nat.mod_eq_of_lt (by omega), h,
    Nat.and_two_pow_sub_one_eq_mod, Nat.shiftRight_eq_div_pow]

end Sys2Proof.Machine
end

