-- ==== Sys2Proof/Machine/AssemblerText.lean ====
section
/-!
DEFINITION. The text of the host's program lines: mnemonics in lower case, register names, decimal and hexadecimal numbers
(30_encoding.md R67, R68). Where the spec is silent on spacing, log 17.
-/

namespace Sys2Proof.Machine

/-- The name of a register in a program line (10_state.md R10). -/
def Reg.name : Reg → String
  | .cmd => "CMD" | .arg => "ARG" | .status => "STATUS" | .result0 => "RESULT0" | .result1 => "RESULT1"
  | .width => "WIDTH" | .height => "HEIGHT" | .depth => "DEPTH" | .compression => "COMPRESSION"
  | .maskR => "MASK_R" | .maskG => "MASK_G" | .maskB => "MASK_B" | .maskA => "MASK_A"
  | .stride => "STRIDE" | .bufLen => "BUF_LEN"
  | .chR => "CH_R" | .chG => "CH_G" | .chB => "CH_B" | .chA => "CH_A"

/-- The mnemonics of the program lines (30_encoding.md R67, R68). -/
inductive Mnemonic where
  | wr | rd | nop | validate | setup | readrow (ord : Order) | bfdec | lutrd | setfmt | setmasks | setbuf
deriving DecidableEq, Repr

/-- A mnemonic as it is written. -/
def Mnemonic.text : Mnemonic → String
  | .wr => "wr" | .rd => "rd" | .nop => "nop" | .validate => "validate" | .setup => "setup"
  | .readrow .bgra => "readrow.bgra" | .readrow .rgba => "readrow.rgba"
  | .bfdec => "bfdec" | .lutrd => "lutrd" | .setfmt => "setfmt" | .setmasks => "setmasks" | .setbuf => "setbuf"

/-- Every mnemonic. -/
def Mnemonic.all : List Mnemonic :=
  [.wr, .rd, .nop, .validate, .setup, .readrow .bgra, .readrow .rgba, .bfdec, .lutrd, .setfmt, .setmasks, .setbuf]

/-- The value of a decimal or hexadecimal digit. -/
def digitValue (c : Char) : Option Nat :=
  if '0'.toNat ≤ c.toNat ∧ c.toNat ≤ '9'.toNat then some (c.toNat - '0'.toNat)
  else if 'A'.toNat ≤ c.toNat ∧ c.toNat ≤ 'F'.toNat then some (c.toNat - 'A'.toNat + 10)
  else if 'a'.toNat ≤ c.toNat ∧ c.toNat ≤ 'f'.toNat then some (c.toNat - 'a'.toNat + 10)
  else none

/-- The number its digits write in a base, the value `acc` standing before them. -/
def digitsValue (base acc : Nat) : List Char → Option Nat
  | [] => some acc
  | c :: rest => (digitValue c).bind fun d => if d < base then digitsValue base (base * acc + d) rest else none

/-- A number without a sign: `0x` and hexadecimal digits, or decimal digits (30_encoding.md R67). -/
def unsignedNumber : List Char → Option Nat
  | [] => none
  | '0' :: 'x' :: rest => if rest = [] then none else digitsValue 16 0 rest
  | c :: rest => digitsValue 10 0 (c :: rest)

/-- A number, a minus sign before it where it is negative (30_encoding.md R68). -/
def number : List Char → Option Int
  | '-' :: rest => (unsignedNumber rest).map fun n => -(n : Int)
  | cs => (unsignedNumber cs).map fun n => (n : Int)

/-- The pieces of a text between the separators `sep`. -/
def pieces (sep : Char) : List Char → List (List Char)
  | [] => [[]]
  | c :: rest =>
    if c = sep then [] :: pieces sep rest
    else match pieces sep rest with
      | [] => [[c]]
      | p :: ps => (c :: p) :: ps

/-- A text without the spaces at its two ends. -/
def trimSpaces (cs : List Char) : List Char := ((cs.dropWhile (· == ' ')).reverse.dropWhile (· == ' ')).reverse

/-- The mnemonic and the operands of a line: the first word, then what the commas separate. -/
def lineParts (cs : List Char) : List Char × List (List Char) :=
  let t := trimSpaces cs
  let rest := trimSpaces (t.dropWhile (· != ' '))
  (t.takeWhile (· != ' '), if rest = [] then [] else (pieces ',' rest).map trimSpaces)

/-- The line a mnemonic and its operands write; none where they are of no form of 30_encoding.md R67 and R68. -/
def AsmLine.ofParts (m : Mnemonic) (operands : List (List Char)) : Option AsmLine :=
  let reg := fun t : List Char => Reg.all.find? fun r => r.name.toList == t
  match m, operands with
  | .wr, [r, v] => (reg r).bind fun r => (number v).map fun v => .wr r v
  | .rd, [r] => (reg r).map .rd
  | .nop, [] => some .nop
  | .validate, [] => some .validate
  | .setup, [] => some .setup
  | .readrow ord, [] => some (.readrow ord)
  | .readrow ord, [r] => (number r).map (.readrowAt ord)
  | .bfdec, [] => some .bfdec
  | .bfdec, [v] => (number v).map .bfdecOf
  | .lutrd, [] => some .lutrd
  | .lutrd, [w, i] => (number w).bind fun w => (number i).map fun i => .lutrdAt w i
  | .setfmt, [w, h, d, c] =>
    (number w).bind fun w => (number h).bind fun h => (number d).bind fun d => (number c).map fun c => .setfmt w h d c
  | .setmasks, [r, g, b, a] =>
    (number r).bind fun r => (number g).bind fun g => (number b).bind fun b => (number a).map fun a => .setmasks r g b a
  | .setbuf, [st, n] => (number st).bind fun st => (number n).map fun n => .setbuf st n
  | _, _ => none

/-- The program line a text writes (30_encoding.md R67, R68). -/
def AsmLine.parse (text : String) : Option AsmLine :=
  let p := lineParts text.toList
  (Mnemonic.all.find? fun m => m.text.toList == p.1).bind fun m => AsmLine.ofParts m p.2

end Sys2Proof.Machine
end

