-- ==== Sys2Proof/Tests/Slice0.lean ====
section
/-!
SUPPORT. Tests with values written out from the spec (the file and rule or vector stands beside each), and for every obligation
with hypotheses a concrete state and operands that meet them.
-/

namespace Sys2Proof.Tests

open Sys2Proof Sys2Proof.Machine

/-! ## Helpers -/

/-- `f` of the state an outcome leaves. -/
def after {α : Type} (o : Outcome) (f : State → α) : Option α :=
  match o with
  | .next t => some (f t)
  | .fault _ => none
  | .refused _ => none

/-- A state with the format registers given, every other register 0. -/
def fmt (w h d c : Word) : State := { State.reset with width := w, height := h, depth := d, compression := c }

/-- The same with the mask registers given. -/
def withMasks (s : State) (r g b a : Word) : State := { s with maskR := r, maskG := g, maskB := b, maskA := a }

/-- The same with STATUS given. -/
def withStatus (s : State) (v : Word) : State := { s with status := v }

/-- The bytes at the indices from 0 on. -/
def bytes (l : List Byte) : Memory := l.mapIdx fun i b => (i, b)

/-- The set-up of 95_test_vectors.md E5: one 24-bit pixel, validated and set up. -/
def s24 : State :=
  { fmt 1 1 24 0 with
    status := 0x3, stride := 4, bufLen := 4, chR := 0x010810FF, chG := 0x010808FF, chB := 0x010800FF
    source := bytes [0x10, 0x20, 0x30, 0x00] }

/-- The set-up of 95_test_vectors.md E7, for a height and a row: four 16-bit scanlines of two pixels. -/
def s16 (h row : Word) : State :=
  { fmt 2 h 16 0 with
    status := 0x3, stride := 4, bufLen := 16, arg := row, chR := 0x01050A1F, chG := 0x0105051F, chB := 0x0105001F
    source := bytes [0x00, 0x7C, 0x00, 0x00, 0xE0, 0x03, 0x00, 0x00, 0x1F, 0x00, 0x00, 0x00, 0xFF, 0x7F, 0x01, 0x00] }

/-- The set-up of 95_test_vectors.md P4: four 24-bit pixels in a buffer cut short at 7 bytes. -/
def sCut : State :=
  { s24 with
    width := 4, stride := 12, bufLen := 7
    source := bytes [0x10, 0x20, 0x30, 0x40, 0x50, 0x60, 0x70, 0x99, 0x99, 0x99, 0x99, 0x99] }

/-- Every disturbance at once: byte 3 of the source changed, output bytes 0, 3 and 0 again read by other agents, and reset or not. -/
def allAtOnce (cut : Bool) : Disturbance := { changes := [(3, 0x55)], reads := [0, 3, 0], cut := cut }

/-- The state with these transactions to come. -/
def awaiting (s : State) (ops : List HostOp) : State := { s with pending := ops }

/-! ## Decoding (30_encoding.md R60 to R62, R66): OP in bits 3:0, ORD in bit 4, 0 above -/

theorem test_decode_nop : decode 0b00000000000000000000000000000000#32 = .ok .nop := by decide

theorem test_decode_validate : decode 0b00000000000000000000000000000001#32 = .ok .validate := by decide

theorem test_decode_setup : decode 0b00000000000000000000000000000010#32 = .ok .setup := by decide

theorem test_decode_readrow_bgra : decode 0b00000000000000000000000000000011#32 = .ok (.readrow .bgra) := by decide

theorem test_decode_readrow_rgba : decode 0b00000000000000000000000000010011#32 = .ok (.readrow .rgba) := by decide

theorem test_decode_bfdec : decode 0b00000000000000000000000000000100#32 = .ok .bfdec := by decide

theorem test_decode_lutrd : decode 0b00000000000000000000000000000101#32 = .ok .lutrd := by decide

/-- R66: each ground for an illegal word, by name. -/
theorem test_decode_illegal_words :
    decode 0x00000006 = .error .reservedOp ∧ decode 0x0000000F = .error .reservedOp
      ∧ decode 0x00000020 = .error .reservedBits ∧ decode 0x80000003 = .error .reservedBits
      ∧ decode 0x00000010 = .error .ordOutsideReadRow ∧ decode 0x00000014 = .error .ordOutsideReadRow := by decide

/-- The words of R62 as the opcode table numbers them. -/
theorem test_decodeTableWord :
    decodeTableWord 32 0x13 = some (.readrow .rgba) ∧ decodeTableWord 32 0x5 = some .lutrd ∧ decodeTableWord 32 0x6 = none := by
  decide

/-- A placed word is the next command, right after reset: SETUP without VALID leaves ERR = NOT_VALID (60_exceptions.md R231). -/
theorem test_withFetchWord_runs : after (step (State.reset.withFetchWord 32 0x2)) State.status = some 0x00000200 := by decide

/-! ## Well-formedness of the host's lines (30_encoding.md R67, R68): a term for each check, which the check refuses -/

theorem test_wellFormed_refuses_wr : (AsmLine.wr .arg (2 ^ 32)).wellFormed = false ∧ (AsmLine.wr .arg (-2 ^ 31 - 1)).wellFormed = false := by
  decide

theorem test_wellFormed_refuses_readrow : (AsmLine.readrowAt .bgra (2 ^ 31)).wellFormed = false := by decide

theorem test_wellFormed_refuses_bfdec : (AsmLine.bfdecOf (-1)).wellFormed = false := by decide

theorem test_wellFormed_refuses_lutrd :
    (AsmLine.lutrdAt 16 0).wellFormed = false ∧ (AsmLine.lutrdAt (-1) 0).wellFormed = false
      ∧ (AsmLine.lutrdAt 8 256).wellFormed = false ∧ (AsmLine.lutrdAt 8 (-1)).wellFormed = false := by decide

theorem test_wellFormed_refuses_setfmt :
    (AsmLine.setfmt (2 ^ 31) 0 0 0).wellFormed = false ∧ (AsmLine.setfmt 0 (2 ^ 31) 0 0).wellFormed = false
      ∧ (AsmLine.setfmt 0 0 (-1) 0).wellFormed = false ∧ (AsmLine.setfmt 0 0 0 (-1)).wellFormed = false := by decide

theorem test_wellFormed_refuses_setmasks :
    (AsmLine.setmasks (-1) 0 0 0).wellFormed = false ∧ (AsmLine.setmasks 0 (-1) 0 0).wellFormed = false
      ∧ (AsmLine.setmasks 0 0 (-1) 0).wellFormed = false ∧ (AsmLine.setmasks 0 0 0 (2 ^ 32)).wellFormed = false := by decide

theorem test_wellFormed_refuses_setbuf :
    (AsmLine.setbuf (-1) 0).wellFormed = false ∧ (AsmLine.setbuf 0 (2 ^ 32)).wellFormed = false := by decide

/-- The lines of 95_test_vectors.md P2, 2 and P3, 11 as bus transactions. -/
theorem test_expand :
    (AsmLine.setfmt 2 (-2) 16 3).expand = [.regWrite 5 0x2, .regWrite 6 0xFFFFFFFE, .regWrite 7 0x10, .regWrite 8 0x3]
      ∧ (AsmLine.lutrdAt 5 16).expand = [.regWrite 1 0x00001005, .regWrite 0 0x5]
      ∧ (AsmLine.setmasks 0xF800 0x07E0 0x001F 0).expand
        = [.regWrite 9 0xF800, .regWrite 10 0x07E0, .regWrite 11 0x001F, .regWrite 12 0]
      ∧ (AsmLine.setbuf 4 8).expand = [.regWrite 13 0x4, .regWrite 14 0x8] := by decide

/-- Lines of 95_test_vectors.md P1 to P3 and of 30_encoding.md R68, as written. -/
theorem test_parse :
    AsmLine.parse "wr HEIGHT, -2" = some (.wr .height (-2)) ∧ AsmLine.parse "wr MASK_G, 0x07E0" = some (.wr .maskG 0x07E0)
      ∧ AsmLine.parse "rd CH_G" = some (.rd .chG) ∧ AsmLine.parse "readrow.rgba" = some (.readrow .rgba)
      ∧ AsmLine.parse "readrow.bgra -1" = some (.readrowAt .bgra (-1)) ∧ AsmLine.parse "lutrd 5, 16" = some (.lutrdAt 5 16)
      ∧ AsmLine.parse "setfmt 2, -2, 16, 3" = some (.setfmt 2 (-2) 16 3) := by decide

/-- An unknown mnemonic, an upper-case one, an unknown register, a missing and a spare operand, and no number. -/
theorem test_parse_refuses :
    ["jmp 1", "NOP", "wr CH_X, 1", "wr ARG", "lutrd 5, 16, 1", "wr ARG, 0x", "wr ARG, 1F"].map AsmLine.parse
      = List.replicate 7 none := by decide

/-! ## The scale tables (42_scale_lut.md R121) -/

theorem test_table_1 : (List.range 2).map (fun i => (lut 1 i).toNat) =
      [0, 255] := by decide

theorem test_table_2 : (List.range 4).map (fun i => (lut 2 i).toNat) =
      [0, 85, 170, 255] := by decide

theorem test_table_3 : (List.range 8).map (fun i => (lut 3 i).toNat) =
      [0, 36, 72, 109, 145, 182, 218, 255] := by decide

theorem test_table_4 : (List.range 16).map (fun i => (lut 4 i).toNat) =
      [0, 17, 34, 51, 68, 85, 102, 119, 136, 153, 170, 187, 204, 221, 238, 255] := by decide

theorem test_table_5 : (List.range 32).map (fun i => (lut 5 i).toNat) =
      [0, 8, 16, 24, 32, 41, 49, 57, 65, 74, 82, 90, 98, 106, 115, 123] ++
      [131, 139, 148, 156, 164, 172, 180, 189, 197, 205, 213, 222, 230, 238, 246, 255] := by decide

theorem test_table_6 : (List.range 64).map (fun i => (lut 6 i).toNat) =
      [0, 4, 8, 12, 16, 20, 24, 28, 32, 36, 40, 44, 48, 52, 56, 60] ++
      [64, 68, 72, 76, 80, 85, 89, 93, 97, 101, 105, 109, 113, 117, 121, 125] ++
      [129, 133, 137, 141, 145, 149, 153, 157, 161, 165, 170, 174, 178, 182, 186, 190] ++
      [194, 198, 202, 206, 210, 214, 218, 222, 226, 230, 234, 238, 242, 246, 250, 255] := by decide

theorem test_table_7 : (List.range 128).map (fun i => (lut 7 i).toNat) =
      [0, 2, 4, 6, 8, 10, 12, 14, 16, 18, 20, 22, 24, 26, 28, 30] ++
      [32, 34, 36, 38, 40, 42, 44, 46, 48, 50, 52, 54, 56, 58, 60, 62] ++
      [64, 66, 68, 70, 72, 74, 76, 78, 80, 82, 84, 86, 88, 90, 92, 94] ++
      [96, 98, 100, 102, 104, 106, 108, 110, 112, 114, 116, 118, 120, 122, 124, 126] ++
      [128, 130, 132, 134, 136, 138, 140, 142, 144, 146, 148, 150, 152, 154, 156, 158] ++
      [160, 162, 164, 166, 168, 170, 172, 174, 176, 178, 180, 182, 184, 186, 188, 190] ++
      [192, 194, 196, 198, 200, 202, 204, 206, 208, 210, 212, 214, 216, 218, 220, 222] ++
      [224, 226, 228, 230, 232, 234, 236, 238, 240, 242, 244, 246, 248, 250, 252, 255] := by decide

theorem test_table_8 : ∀ i < 64, (lut 8 i).toNat = i ∧ (lut 8 (64 + i)).toNat = 64 + i ∧ (lut 8 (128 + i)).toNat = 128 + i
    ∧ (lut 8 (192 + i)).toNat = 192 + i := by decide

/-! ## One step of each command (95_test_vectors.md) -/

/-- Vectors 2.1: NOP clears ERR alone. -/
theorem test_nop : after (exec .nop (withStatus State.reset 0x00050303)) State.status = some 0x00050003 := by decide

/-- Vectors 2.1: illegal words set ERR alone. -/
theorem test_illegal_words : [0x6#32, 0xF, 0x10, 0x11, 0x14, 0x20, 0x80000003, 0x23].map
      (fun c => after (execute c (withStatus State.reset 0x3)) State.status) = List.replicate 8 (some 0x00000103) := by decide

/-- Vectors E4, in their order: STATUS after each. -/
theorem test_validate_rejections :
    [fmt 0xFFFFFFFF 1 24 0, fmt 0x7FFFFFFF 1 24 0, fmt 1 0x40000001 24 0, fmt 1 0xBFFFFFFF 24 0, fmt 1 1 8 0, fmt 1 1 24 1,
        withMasks (fmt 1 1 24 3) 0x1FF 0 0 0, fmt 1 1 24 0].map (fun s => after (exec .validate s) State.status)
      = [some 0x00010000, some 0x00020000, some 0x00030000, some 0x00030000, some 0x00040000, some 0x00050000,
        some 0x00060000, some 0x00000001] := by decide

/-- Vectors 2.4: the boundaries, the masks' span, and the order of the checks. -/
theorem test_validate_boundaries :
    [fmt 0 0 32 0, fmt 0x40000000 1 24 0, fmt 0x40000001 1 24 0, fmt 1 0xC0000000 24 0, fmt 1 0x80000000 24 0, fmt 1 1 8 1,
        withMasks (fmt 1 1 16 3) 0x0500 0 0 0, withMasks (fmt 1 1 16 3) 0x8001 0 0 0, withMasks (fmt 1 1 32 3) 0 0 0 0x1FF,
        withMasks (fmt 1 1 16 0) 0xFFFFFFFF 0xFFFFFFFF 0xFFFFFFFF 0xFFFFFFFF, fmt 0xFFFFFFFF 0x80000000 8 1].map
        (fun s => after (exec .validate s) State.status)
      = [some 0x1, some 0x1, some 0x00020000, some 0x1, some 0x00030000, some 0x00040000, some 0x1, some 0x00060000,
        some 0x00060000, some 0x1, some 0x00010000] := by decide

/-- Vectors 2.5: the CH registers of defaults, 565, 8888 with alpha, a gapped mask, no masks. -/
theorem test_setup_channels :
    [fmt 1 1 16 0, fmt 1 1 24 0, fmt 1 1 32 0, withMasks (fmt 1 1 16 3) 0xF800 0x07E0 0x001F 0,
        withMasks (fmt 1 1 32 3) 0xFF0000 0xFF00 0xFF 0xFF000000, withMasks (fmt 1 1 16 3) 0x0500 0x0006 0x00F0 0,
        fmt 1 1 16 3].map
        (fun s => after (exec .setup (withStatus s 0x1)) fun t => [t.status, t.chR, t.chG, t.chB, t.chA])
      = [some [0x3, 0x01050A1F, 0x0105051F, 0x0105001F, 0], some [0x3, 0x010810FF, 0x010808FF, 0x010800FF, 0],
        some [0x3, 0x010810FF, 0x010808FF, 0x010800FF, 0], some [0x3, 0x01050B1F, 0x0106053F, 0x0105001F, 0],
        some [0x3, 0x010810FF, 0x010808FF, 0x010800FF, 0x010818FF], some [0x3, 0x00020805, 0x01020103, 0x0104040F, 0],
        some [0x3, 0, 0, 0, 0]] := by decide

/-- Vectors 2.5: SETUP after a rejecting VALIDATE. -/
theorem test_setup_not_valid : after (exec .setup (withStatus State.reset 0x00040000)) State.status = some 0x00040200 := by decide

/-- Vectors E5 and E7: both orders of a 24-bit pixel, and row 0 of a top-down and of a bottom-up image. -/
theorem test_readrow_orders_and_rows :
    after (exec (.readrow .bgra) s24) State.output = some (bytes [0x10, 0x20, 0x30, 0xFF])
      ∧ after (exec (.readrow .rgba) s24) State.output = some (bytes [0x30, 0x20, 0x10, 0xFF])
      ∧ after (exec (.readrow .bgra) (s16 0xFFFFFFFC 0)) State.output
        = some (bytes [0x00, 0x00, 0xFF, 0xFF, 0x00, 0x00, 0x00, 0x00])
      ∧ after (exec (.readrow .bgra) (s16 4 0)) State.output
        = some (bytes [0xFF, 0xFF, 0xFF, 0xFF, 0x08, 0x00, 0x00, 0xFF]) := by decide

/-- Vectors P4 and RR-C: a row whose buffer is cut short, and a row outside the image. -/
theorem test_readrow_bounds :
    after (exec (.readrow .bgra) sCut) State.output
        = some (bytes [0x10, 0x20, 0x30, 0xFF, 0x40, 0x50, 0x60, 0xFF, 0x70, 0x00, 0x00, 0xFF, 0x00, 0x00, 0x00, 0x00])
      ∧ after (exec (.readrow .bgra) (s16 4 0xFFFFFFFF)) State.output = some (bytes (List.replicate 8 0x00)) := by decide

/-- Vectors 2.2: RESULT0 and RESULT1. -/
theorem test_bfdec :
    [0x0#32, 0x7C00, 0x07E0, 0x80000000, 0x500, 0x8001, 0x1FF, 0xFFFFFFFF].map
        (fun m => after (exec .bfdec { State.reset with arg := m }) fun t => (t.result0, t.result1))
      = [some (0x0, 0x0), some (0x1F, 0x0105050A), some (0x3F, 0x01060605), some (0x1, 0x0101011F), some (0x5, 0x00030208),
        some (0x8001, 0x00100200), some (0x1FF, 0x00090900), some (0xFFFFFFFF, 0x00202000)] := by decide

/-- Vectors 2.3: the operands that complete. -/
theorem test_lutrd :
    [0x1#32, 0x101, 0x202, 0x303, 0x704, 0x1005, 0x2006, 0x7E07, 0xFF08].map
        (fun a => after (exec .lutrd { State.reset with arg := a, result1 := 7 }) fun t => (t.status, t.result0, t.result1))
      = [some (0, 0x00, 0), some (0, 0xFF, 0), some (0, 0xAA, 0), some (0, 0x6D, 0), some (0, 0x77, 0), some (0, 0x83, 0),
        some (0, 0x81, 0), some (0, 0xFC, 0), some (0, 0xFF, 0)] := by decide

/-- Vectors 2.3: BAD_ARG, RESULT0 and RESULT1 kept. -/
theorem test_lutrd_bad_arg :
    [0x0#32, 0x9, 0xF, 0x201, 0x2005, 0x4003, 0x15, 0x10005, 0x80000008].map
        (fun a => after (exec .lutrd { State.reset with arg := a, result0 := 6, result1 := 7 })
          fun t => (t.status, t.result0, t.result1))
      = List.replicate 9 (some (0x00000400, 6, 7)) := by decide

/-! ## Witnesses: for each obligation with hypotheses, a concrete input that meets them, at the boundaries of its clauses -/

theorem witness_DecodeInvertsEncode :
    decode 0x13 = .ok (.readrow .rgba) ∧ (Instr.readrow .rgba).wellFormed = true ∧ encode (.readrow .rgba) = 0x13 := by decide

theorem witness_IllegalWordSetsOnlyErr :
    (awaiting s24 [.regWrite 0 0x6]).pending = .regWrite 0 0x6 :: []
      ∧ 6 ≤ ((0x6 : Word).extractLsb' 0 4).toNat ∧ 6 ≤ ((0xF : Word).extractLsb' 0 4).toNat
      ∧ (0x20 : Word).extractLsb' 5 27 ≠ 0 ∧ (0x80000003 : Word).extractLsb' 5 27 ≠ 0
      ∧ ((0x10 : Word).extractLsb' 4 1 = 1 ∧ (0x10 : Word).extractLsb' 0 4 ≠ 3)
      ∧ ((0x15 : Word).extractLsb' 4 1 = 1 ∧ (0x15 : Word).extractLsb' 0 4 ≠ 3) := by decide

theorem witness_StepRunsTheDecodedCommand :
    (awaiting s24 [.regWrite 0 0x3]).pending = .regWrite 0 0x3 :: [] ∧ decode 0x3 = .ok (.readrow .bgra) := by decide

theorem witness_IdleCoreKeepsItsState : s24.pending = [] := rfl

theorem witness_RegisterReadReturnsTheRegister :
    (awaiting s24 [.regRead 0x00]).pending = .regRead 0x00 :: [] ∧ (awaiting s24 [.regRead 0x12]).pending = .regRead 0x12 :: []
      ∧ (awaiting s24 [.regRead 0x13]).pending = .regRead 0x13 :: []
      ∧ (awaiting s24 [.regRead 0x3F]).pending = .regRead 0x3F :: [] := by decide

/-- A register of each kind: one whose write ends the session, one whose write does not, a read-only one, STATUS. -/
theorem witness_RegisterWriteStoresAndEndsTheSession :
    ∀ r ∈ [Reg.width, .maskA, .arg, .bufLen, .status, .chA],
      r ≠ .cmd ∧ (awaiting s24 [.regWrite r.offset 5]).pending = .regWrite r.offset 5 :: [] := by decide

theorem witness_UnmappedWriteIsIgnored :
    ∀ o ∈ [(0x13 : WordOffset), 0x3F],
      0x4C ≤ 4 * o.toNat ∧ (awaiting s24 [.regWrite o 5]).pending = .regWrite o 5 :: [] := by decide

theorem witness_HostMemoryAccesses :
    ∀ i ∈ [(0 : BitVec 32), 0xFFFFFFFF],
      (awaiting s24 [.sourceStore i 5]).pending = .sourceStore i 5 :: []
        ∧ (awaiting s24 [.outputStore i 5]).pending = .outputStore i 5 :: []
        ∧ (awaiting s24 [.sourceLoad i]).pending = .sourceLoad i :: []
        ∧ (awaiting s24 [.outputLoad i]).pending = .outputLoad i :: [] := fun _ _ => ⟨rfl, rfl, rfl, rfl⟩

theorem witness_ResetClearsTheRegisters : (awaiting s24 [.reset]).pending = .reset :: [] := rfl

/-- The first and the last byte of the row, and the first byte after it. -/
theorem witness_ResetDuringACommand :
    (awaiting s24 [.disturbed 0x3 (allAtOnce true)]).pending = .disturbed 0x3 (allAtOnce true) :: []
      ∧ (allAtOnce true).cut = true
      ∧ (∃ u, execute 0x3 { awaiting s24 [] with source := tearSource s24.draws (allAtOnce true).changes s24.source } = .next u)
      ∧ (∀ x ∈ (allAtOnce true).changes, x.1.toNat ≠ 0)
      ∧ ((0 : Nat) : Int) < 4 * s24.width.toInt ∧ ((3 : Nat) : Int) < 4 * s24.width.toInt
      ∧ 4 * s24.width.toInt ≤ ((4 : Nat) : Int) := by
  refine ⟨rfl, rfl, ⟨_, rfl⟩, fun x hx => ?_, by decide, by decide, by decide⟩
  simp only [allAtOnce, List.mem_cons, List.not_mem_nil, or_false] at hx
  subst hx; decide

/-- A command that fails with each code. -/
theorem witness_FailedCommandChangesOnlyErr :
    [0x6#32, 0x2, 0x3, 0x5].map (fun c => after (execute c State.reset) fun t => t.err) = [some 1, some 2, some 3, some 4] := by
  decide

theorem witness_MaskDecoding : (0x80000000 : Word) ≠ 0 ∧ (0x00000001 : Word) ≠ 0 := by decide

theorem witness_BindableMasks :
    (1 ≤ 1 ∧ 1 ≤ 8 ∧ (0x01 : Word).toNat = 2 ^ 1 - 1) ∧ (1 ≤ 8 ∧ 8 ≤ 8 ∧ (0xFF : Word).toNat = 2 ^ 8 - 1) := by decide

/-- A mask of one bit at either end of the word, the mask of all bits, and a mask with a gap; and no mask. -/
theorem witness_BfdecReportsTheDecodedMask :
    State.reset.arg = 0
      ∧ (IsLowestBit 0x80000000 31 ∧ IsHighestBit 0x80000000 31) ∧ (IsLowestBit 0x00000001 0 ∧ IsHighestBit 0x00000001 0)
      ∧ (IsLowestBit 0xFFFFFFFF 0 ∧ IsHighestBit 0xFFFFFFFF 31) ∧ (IsLowestBit 0x00000500 8 ∧ IsHighestBit 0x00000500 10) := by
  have top : ∀ (m : Word) (hi : Nat), (∀ j < 32, hi < j → m.getLsbD j = false) → ∀ j, hi < j → m.getLsbD j = false := by
    intro m hi h j hj
    by_cases h32 : j < 32
    · exact h j h32 hj
    · exact BitVec.getLsbD_of_ge _ _ (by omega)
  refine ⟨rfl, ⟨⟨by decide, by decide⟩, by decide, top _ _ (by decide)⟩, ⟨⟨by decide, by decide⟩, by decide, top _ _ (by decide)⟩,
    ⟨⟨by decide, by decide⟩, by decide, top _ _ (by decide)⟩, ⟨by decide, by decide⟩, by decide, top _ _ (by decide)⟩

theorem witness_ScaleTableProperties :
    (1 ≤ 1 ∧ 1 ≤ 8 ∧ 1 < 2 ^ 1 ∧ 0 + 1 < 2 ^ 1 ∧ 1 ∈ [1, 2, 4, 8])
      ∧ (1 ≤ 8 ∧ 8 ≤ 8 ∧ 255 < 2 ^ 8 ∧ 254 + 1 < 2 ^ 8 ∧ 8 ∈ [1, 2, 4, 8]) := by decide

theorem witness_LutrdReadsTheTable :
    (1 ≤ 1 ∧ 1 ≤ 8 ∧ 1 < 2 ^ 1 ∧ ({ State.reset with arg := 0x101 } : State).arg.toNat = 1 * 256 + 1)
      ∧ (1 ≤ 8 ∧ 8 ≤ 8 ∧ 255 < 2 ^ 8 ∧ ({ State.reset with arg := 0xFF08 } : State).arg.toNat = 255 * 256 + 8) := by decide

/-- An index one past its table, and a reserved bit. -/
theorem witness_LutrdRefusesEveryOtherOperand :
    ∀ a ∈ [(0x2005 : Word), 0x00010005], ¬ ∃ w i, 1 ≤ w ∧ w ≤ 8 ∧ i < 2 ^ w ∧ a.toNat = i * 256 + w := by
  intro a ha
  rintro ⟨w, i, h1, h8, hi, h⟩
  simp only [List.mem_cons, List.not_mem_nil, or_false] at ha
  rcases ha with rfl | rfl <;> interval_cases w <;> simp at h hi <;> omega

theorem witness_MaskWidthIsTheSpan :
    IsLowestBit 0x1FF 0 ∧ IsHighestBit 0x1FF 8 ∧ (∀ i, 0 ≤ i → i ≤ 8 → (0x1FF : Word).getLsbD i = true) := by
  refine ⟨⟨by decide, by decide⟩, ⟨by decide, fun j hj => ?_⟩, fun i _ h8 => ?_⟩
  · rw [BitVec.getLsbD, Nat.testBit_lt_two_pow (lt_of_lt_of_le (by decide : (0x1FF : Word).toNat < 2 ^ 9) (Nat.pow_le_pow_right (by omega) hj))]
  · interval_cases i <;> rfl

theorem witness_SetupResolvesTheMasksInForce :
    (withStatus (fmt 1 1 16 3) 0x1).valid = true ∧ (fmt 1 1 16 3).compression = 3
      ∧ (withStatus (fmt 1 1 16 0) 0x1).valid = true ∧ (fmt 1 1 16 0).compression ≠ 3 ∧ (fmt 1 1 16 0).depth = 16
      ∧ (withStatus (fmt 1 1 32 0) 0x1).valid = true ∧ (fmt 1 1 32 0).compression ≠ 3 ∧ (fmt 1 1 32 0).depth ≠ 16 := by decide

theorem witness_SetupOfTheDefaultMasks :
    ∀ d ∈ [(16 : Word), 24, 32], (withStatus (fmt 1 1 d 0) 0x1).valid = true ∧ (fmt 1 1 d 0).compression = 0
      ∧ (d = 16 ∨ d = 24 ∨ d = 32) := by
  intro d hd
  simp only [List.mem_cons, List.not_mem_nil, or_false] at hd
  rcases hd with rfl | rfl | rfl <;> decide

/-- READ_ROW's statements: a session set up, its first and last pixel, and the bytes after its row. -/
theorem witness_ReadRow :
    sCut.setupDone = true ∧ ((0 : Nat) : Int) < sCut.width.toInt ∧ ((3 : Nat) : Int) < sCut.width.toInt
      ∧ 4 * sCut.width.toInt ≤ ((16 : Nat) : Int) := by decide

theorem witness_FetchedPixelIsLittleEndian :
    (2 ∈ [2, 3, 4] ∧ (s16 4 0).depth.toNat / 8 = 2) ∧ (3 ∈ [2, 3, 4] ∧ s24.depth.toNat / 8 = 3)
      ∧ (4 ∈ [2, 3, 4] ∧ (fmt 1 1 32 0).depth.toNat / 8 = 4)
      ∧ (-1 : Int) < 0 ∧ (s24.bufLen.toNat : Int) ≤ 4 ∧ (3 : Int) = ((3 : Nat) : Int) := by decide

/-- Two states that differ in a byte past the buffer, a mask register, a result and CH_A. -/
theorem witness_ReadRowDependsOnlyOnTheBuffer :
    let s' : State := { sCut with maskR := 7, result0 := 7, chA := 7, source := Memory.put sCut.source 7 0x55 }
    sCut.setupDone = true ∧ s'.setupDone = true ∧ sCut.width = s'.width ∧ sCut.height = s'.height ∧ sCut.depth = s'.depth
      ∧ sCut.stride = s'.stride ∧ sCut.bufLen = s'.bufLen ∧ sCut.arg = s'.arg ∧ sCut.chR = s'.chR ∧ sCut.chG = s'.chG
      ∧ sCut.chB = s'.chB ∧ (∀ i, i < sCut.bufLen.toNat → sCut.sourceByte i = s'.sourceByte i)
      ∧ sCut.sourceByte 7 ≠ s'.sourceByte 7 := by
  refine ⟨by decide, by decide, rfl, rfl, rfl, rfl, rfl, rfl, rfl, rfl, rfl, fun i hi => ?_, by decide⟩
  have : i < 7 := hi
  interval_cases i <;> rfl

/-- A bound channel of 1 bit, one of 8 bits at the top of the word, and an unbound one. -/
theorem witness_ScaledChannelIsZeroExactlyWhenRawIs :
    (ChannelLegal 0x01010F01 ∧ chBound 0x01010F01 = true) ∧ (ChannelLegal 0x010818FF ∧ chBound 0x010818FF = true)
      ∧ (ChannelLegal 0x00020805 ∧ chBound 0x00020805 = false) := by
  refine ⟨⟨?_, by decide⟩, ⟨?_, by decide⟩, ⟨?_, by decide⟩⟩ <;>
    exact ⟨by decide, by decide, by decide, by decide, by decide, by decide⟩

/-- The session of E5 meets every invariant. -/
theorem s24_inv : Inv s24 :=
  ⟨⟨by decide, by decide, by decide, by decide, by decide⟩, ⟨by decide, by decide, by decide, by decide⟩,
    ⟨⟨by decide, by decide, by decide, by decide, by decide, by decide⟩,
      ⟨by decide, by decide, by decide, by decide, by decide, by decide⟩,
      ⟨by decide, by decide, by decide, by decide, by decide, by decide⟩,
      ⟨by decide, by decide, by decide, by decide, by decide, by decide⟩⟩,
    ⟨by decide, fun _ => ⟨⟨by decide, by decide, by decide, by decide, by decide, by decide, by decide⟩, by decide⟩,
      fun _ => ⟨by decide, by decide, by decide, by decide⟩⟩,
    by decide, by decide⟩

/-- A session, its three masks, each an 8-bit run; and a mask that is no run. -/
theorem witness_ColourIsTheExpandedField :
    SessionSound s24 ∧ s24.setupDone = true ∧ (masksInForce s24).red.toNat = (2 ^ 8 - 1) * 2 ^ 16
      ∧ (masksInForce s24).green.toNat = (2 ^ 8 - 1) * 2 ^ 8 ∧ (masksInForce s24).blue.toNat = (2 ^ 8 - 1) * 2 ^ 0
      ∧ ¬ ∃ w sh, 1 ≤ w ∧ w ≤ 8 ∧ (0x00000500 : Word).toNat = (2 ^ w - 1) * 2 ^ sh := by
  refine ⟨s24_inv.2.2.2.1, by decide, by decide, by decide, by decide, ?_⟩
  rintro ⟨w, sh, h1, h8, h⟩
  have hs : sh < 11 := by
    by_contra hc
    have h2 : 2 ^ 11 ≤ 2 ^ sh := Nat.pow_le_pow_right (by omega) (by omega)
    have h3 : 2 ^ 1 ≤ 2 ^ w := Nat.pow_le_pow_right (by omega) h1
    have h4 : 1 * 2 ^ sh ≤ (2 ^ w - 1) * 2 ^ sh := Nat.mul_le_mul_right _ (by omega)
    have h5 : (0x00000500 : Word).toNat = 1280 := rfl
    omega
  interval_cases w <;> interval_cases sh <;> revert h <;> decide

/-- The only pixel of the session of E5, the last of its buffer but for one byte. -/
theorem witness_UncompressedRowIsTheImageRow :
    SessionSound s24 ∧ s24.setupDone = true ∧ s24.compression = 0 ∧ ((0 : Nat) : Int) < s24.width.toInt
      ∧ ((0 : Nat) : Int) = (if s24.height.toInt < 0 then s24.arg.toInt else s24.height.toInt - 1 - s24.arg.toInt)
        * s24.stride.toNat + ((0 : Nat) : Int) * (s24.depth.toNat / 8)
      ∧ 0 + s24.depth.toNat / 8 ≤ s24.bufLen.toNat := ⟨s24_inv.2.2.2.1, by decide, by decide, by decide, by decide, by decide⟩

theorem witness_OtherCommandsTouchNoMemory : ∀ ord, Instr.lutrd ≠ .readrow ord := by intro ord; cases ord <;> decide

/-- A change of byte 3 leaves pixel 0 of four, whose bytes are 0 to 2. -/
theorem witness_SourceRaceTouchesOnlyItsBytes :
    (awaiting sCut [.disturbed (encode (.readrow .bgra)) (allAtOnce false)]).pending
        = .disturbed (encode (.readrow .bgra)) (allAtOnce false) :: []
      ∧ (allAtOnce false).cut = false ∧ sCut.setupDone = true ∧ (∃ u, exec (.readrow .bgra) (awaiting sCut []) = .next u)
      ∧ (∀ c ∈ (allAtOnce false).changes, c.1.toNat ≠ 0)
      ∧ ((0 : Nat) : Int) < sCut.width.toInt
      ∧ ∀ c ∈ (allAtOnce false).changes, ∀ k : Nat, k < sCut.depth.toNat / 8 →
          (c.1.toNat : Int) ≠ pixelOffset sCut 0 + k := by
  refine ⟨rfl, rfl, by decide, ⟨_, rfl⟩, fun c hc => ?_, by decide, fun c hc k hk => ?_⟩
  · simp only [allAtOnce, List.mem_cons, List.not_mem_nil, or_false] at hc
    subst hc; decide
  simp only [allAtOnce, List.mem_cons, List.not_mem_nil, or_false] at hc
  subst hc
  have h : pixelOffset sCut 0 = 0 := by decide
  have h3 : k < 3 := hk
  rw [h]; show (3 : Int) ≠ 0 + k; omega

/-- Three reads, two of them of one index, in a command that is cut and in one that is not, and without a changed source byte. -/
theorem witness_OutputPeekSeesOldOrNew :
    (∀ cut : Bool, (awaiting s24 [.disturbed 0x3 (allAtOnce cut)]).pending = .disturbed 0x3 (allAtOnce cut) :: []
      ∧ (∃ u, execute 0x3 { awaiting s24 [] with source := tearSource s24.draws (allAtOnce cut).changes s24.source } = .next u)
      ∧ (allAtOnce cut).reads[0]? = some 0 ∧ (allAtOnce cut).reads[2]? = some 0)
      ∧ (allAtOnce false).cut = false
      ∧ ∃ u, execute 0x3 { awaiting s24 [] with source := tearSource s24.draws [] s24.source } = .next u :=
  ⟨fun cut => by cases cut <;> exact ⟨rfl, ⟨_, rfl⟩, rfl, rfl⟩, rfl, _, rfl⟩

/-- Other agents' reads of a byte that the command does not change give that byte, one value for each read (R274), and the command
still writes its row (vector E5). -/
theorem test_reads_during_a_command :
    after (step (awaiting { s24 with output := bytes [0x10, 0, 0, 0] } [.disturbed 0x3 { changes := [], reads := [0, 0], cut := false }]))
      (fun t => (t.seen, t.output, t.draws)) = some ([0x10, 0x10], bytes [0x10, 0x20, 0x30, 0xFF], 3) := by
  have pick : ∀ b : Bool, (if b = true then (0x10 : Byte) else 0x10) = 0x10 := by decide
  refine congrArg some (Prod.ext ?_ (by decide))
  exact congrArg₂ List.cons (pick _) (congrArg₂ List.cons (pick _) rfl)

/-- A VALIDATE that changes VALID, SETUP_DONE and REASON; a SETUP, a write and a reset that change registers; a READ_ROW and a
store that change bytes. -/
theorem witness_OnlyTheirWriters :
    after (step (awaiting (withStatus (fmt 1 1 8 0) 0x3) [.regWrite 0 0x1])) (fun t => (t.valid, t.setupDone, t.reason))
        = some (false, false, 4)
      ∧ after (step (awaiting (withStatus (fmt 1 1 24 0) 0x1) [.regWrite 0 0x2])) (fun t => (t.setupDone, t.chR))
        = some (true, 0x010810FF)
      ∧ after (step (awaiting s24 [.regWrite Reg.arg.offset 5])) State.arg = some 5
      ∧ after (step (awaiting s24 [.reset])) (fun t => (t.valid, t.width)) = some (false, 0)
      ∧ after (step (awaiting s24 [.sourceStore 0 5])) (fun t => t.sourceByte 0) = some 5
      ∧ after (step (awaiting { s24 with output := bytes [0, 0, 0, 0] } [.regWrite 0 0x3])) (fun t => t.outputByte 0)
        = some 0x10 := by decide

/-- A state that meets every invariant and a step from it. -/
theorem witness_Invariants : Inv (awaiting s24 [.regWrite 0 0x3]) ∧ ∃ t, step (awaiting s24 [.regWrite 0 0x3]) = .next t :=
  ⟨s24_inv, _, rfl⟩

theorem witness_PseudoInstructionsLoadTheirOperands :
    (AsmLine.lutrdAt 0 0).wellFormed = true ∧ (AsmLine.lutrdAt 15 255).wellFormed = true
      ∧ (AsmLine.readrowAt .bgra (-2 ^ 31)).wellFormed = true ∧ (AsmLine.readrowAt .rgba (2 ^ 31 - 1)).wellFormed = true := by
  decide

end Sys2Proof.Tests
end

section
/-!
SUPPORT. What a step does to the registers, said once: the register part of a state, the host's stores, and the closure conditions
under which a property of the registers is kept by every step.
-/

namespace Sys2Proof.Machine

/-! ## The register part of a state -/

/-- `t` holds in every register what `s` holds; the memories and the model's own fields may differ. -/
def SameRegisters (s t : State) : Prop := ∀ r, t.reg r = s.reg r

/-- The fields that are no registers do not show in them. -/
theorem sameRegisters_update {s : State} {src out : Memory} {ops : List HostOp} {rd : Word} {sn : List Byte} {n : Nat} :
    SameRegisters s { s with source := src, output := out, pending := ops, readData := rd, seen := sn, draws := n } := by
  intro r; cases r <;> rfl

/-- A state with the same registers differs in the fields that are no registers alone. -/
theorem SameRegisters.eq_update {s t : State} (h : SameRegisters s t) :
    t = { s with source := t.source, output := t.output, pending := t.pending, readData := t.readData, seen := t.seen,
                 draws := t.draws } := by
  cases s; cases t
  simp only [State.mk.injEq, and_true]
  exact ⟨h .arg, h .status, h .result0, h .result1, h .width, h .height, h .depth, h .compression, h .maskR, h .maskG,
    h .maskB, h .maskA, h .stride, h .bufLen, h .chR, h .chG, h .chB, h .chA⟩

theorem SameRegisters.valid {s t : State} (h : SameRegisters s t) : t.valid = s.valid :=
  congrArg (fun w => getField w 0 1 == 1) (h .status)

theorem SameRegisters.setupDone {s t : State} (h : SameRegisters s t) : t.setupDone = s.setupDone :=
  congrArg (fun w => getField w 1 1 == 1) (h .status)

theorem SameRegisters.err {s t : State} (h : SameRegisters s t) : t.err = s.err :=
  congrArg (fun w => getField w 8 4) (h .status)

theorem SameRegisters.reason {s t : State} (h : SameRegisters s t) : t.reason = s.reason :=
  congrArg (fun w => getField w 16 4) (h .status)

@[simp] theorem State.reset_reg (r : Reg) : State.reset.reg r = 0 := by cases r <;> rfl

@[simp] theorem coreReset_reg (s : State) (r : Reg) : (coreReset s).reg r = 0 := by cases r <;> rfl

/-! ## The host's store to a register -/

theorem hostStore_of_endsSession {r : Reg} (h : r.endsSession = true) (v : Word) (s : State) :
    hostStore r v s = (s.storeReg v r).endSession := if_pos h

theorem hostStore_of_not_endsSession {r : Reg} (h : r.endsSession = false) (v : Word) (s : State) :
    hostStore r v s = s.storeReg v r := if_neg (by simp [h])

/-- A host store reaches an RW register and, but for STATUS, no other (10_state.md R11). -/
theorem hostStore_reg (r : Reg) (v : Word) (s : State) {q : Reg} (hq : q ≠ .status) :
    (hostStore r v s).reg q = if q = r ∧ r.access = .rw then v else s.reg q := by
  cases h : r.endsSession
  · rw [hostStore_of_not_endsSession h, State.storeReg_reg]
  · rw [hostStore_of_endsSession h, State.endSession_reg _ _ hq, State.storeReg_reg]

/-- What a host store does to STATUS: the end of the session, or nothing (10_state.md R13). -/
theorem hostStore_status_cases (r : Reg) (v : Word) (s : State) :
    (r.endsSession = true ∧ (hostStore r v s).valid = false ∧ (hostStore r v s).setupDone = false
        ∧ (hostStore r v s).err = s.err ∧ (hostStore r v s).reason = s.reason ∧ StatusKept 0x3 s (hostStore r v s))
      ∨ (r.endsSession = false ∧ (hostStore r v s).status = s.status) := by
  have hst : (s.storeReg v r).status = s.status := (State.storeReg_keeps s v r).1
  cases hr : r.endsSession
  · exact .inr ⟨rfl, (hostStore_of_not_endsSession hr v s) ▸ hst⟩
  · rw [hostStore_of_endsSession hr]
    refine .inl ⟨rfl, State.endSession_valid _, State.endSession_setupDone _, ?_, ?_, ?_⟩
    · rw [State.endSession_err, State.err, hst]; rfl
    · rw [State.endSession_reason, State.reason, hst]; rfl
    · have hk := endSession_kept (s.storeReg v r)
      rwa [StatusKept, hst] at hk

/-- A host store changes no memory and none of the model's own fields. -/
theorem hostStore_keeps (r : Reg) (v : Word) (s : State) :
    (hostStore r v s).source = s.source ∧ (hostStore r v s).output = s.output ∧ (hostStore r v s).pending = s.pending
      ∧ (hostStore r v s).readData = s.readData := by
  obtain ⟨-, hsrc, hout, hops, hrd, -, -⟩ := State.storeReg_keeps s v r
  cases h : r.endsSession
  · rw [hostStore_of_not_endsSession h]; exact ⟨hsrc, hout, hops, hrd⟩
  · rw [hostStore_of_endsSession h]; exact ⟨hsrc, hout, hops, hrd⟩

/-- A host store does not look at the host's coming transactions. -/
theorem hostStore_pending (r : Reg) (v : Word) (s : State) (ops : List HostOp) :
    hostStore r v { s with pending := ops } = { hostStore r v s with pending := ops } := by cases r <;> rfl

/-! ## What a step does to the registers -/

/-- A step with a transaction runs a command to its end, stores to a register, resets the core, or keeps every register. -/
theorem step_registers {s t : State} {op : HostOp} {rest : List HostOp} (hp : s.pending = op :: rest)
    (h : step s = .next t) :
    (∃ c s₀ u, op.command = some c ∧ SameRegisters s s₀ ∧ execute c s₀ = .next u ∧ SameRegisters u t)
    ∨ (∃ r v, r ≠ Reg.cmd ∧ op = .regWrite r.offset v ∧ SameRegisters (hostStore r v s) t)
    ∨ (op.isReset = true ∧ SameRegisters State.reset t)
    ∨ SameRegisters s t := by
  have hc := step_cases h
  simp only [hp, List.cons.injEq, reduceCtorEq, false_and, false_or] at hc
  obtain ⟨rest', s₀, rfl, hc⟩ := hc
  rcases hc with ⟨c, ⟨rfl, rfl⟩, hx⟩ | ⟨r, v, hr, ⟨rfl, rfl⟩, rfl⟩ | ⟨o, v, -, ⟨rfl, rfl⟩, rfl⟩ | ⟨o, ⟨rfl, rfl⟩, rfl⟩
    | ⟨i, b, ⟨rfl, rfl⟩, rfl⟩ | ⟨i, ⟨rfl, rfl⟩, rfl⟩ | ⟨j, b, ⟨rfl, rfl⟩, rfl⟩ | ⟨j, ⟨rfl, rfl⟩, rfl⟩ | ⟨⟨rfl, rfl⟩, rfl⟩
    | ⟨c, d, u, ⟨rfl, rfl⟩, hx, rfl⟩
  case inl => -- a command word
    exact .inl ⟨c, _, t, rfl, sameRegisters_update, hx, fun _ => rfl⟩
  case inr.inl => -- a store to a register
    rw [hostStore_pending]
    exact .inr (.inl ⟨r, v, hr, rfl, sameRegisters_update⟩)
  case inr.inr.inr.inr.inr.inr.inr.inr.inl => -- reset
    exact .inr (.inr (.inl ⟨rfl, fun r => by simp⟩))
  case inr.inr.inr.inr.inr.inr.inr.inr.inr => -- a disturbed command
    cases hd : d.cut
    · exact .inl ⟨c, _, u, by simp [HostOp.command, hd], sameRegisters_update, hx, sameRegisters_update⟩
    · exact .inr (.inr (.inl ⟨hd, fun r => by cases r <;> rfl⟩))
  all_goals exact .inr (.inr (.inr sameRegisters_update))

/-! ## Properties of the registers that every step keeps -/

/-- What makes a property of the registers an invariant: the state after reset has it, and each write to a register keeps it,
be it the host's store, the ERR a command ends with, or what a command writes before (43_format_validator.md R146;
44_channel_resolver.md R160; 41_bitfield_decoder.md R102; 42_scale_lut.md R123). `host` says that it is about the registers alone. -/
structure RegisterInvariant (P : State → Prop) : Prop where
  host : ∀ {s : State} {src out : Memory} {ops : List HostOp} {rd : Word} {sn : List Byte} {n : Nat}, P s →
    P { s with source := src, output := out, pending := ops, readData := rd, seen := sn, draws := n }
  reset : P State.reset
  store : ∀ {s : State} (r : Reg) (v : Word), P s → P (hostStore r v s)
  setErr : ∀ {s : State} (e : CmdError), P s → P (s.setErr e)
  validate : ∀ {s : State}, P s →
    P (((s.setReason (validateFormat s)).setValid (validateFormat s == .ok)).setSetupDone false)
  setup : ∀ {s : State}, s.valid = true → P s →
    P ({ s with
      chR := pack (resolve (masksInForce s).red), chG := pack (resolve (masksInForce s).green),
      chB := pack (resolve (masksInForce s).blue), chA := pack (resolve (masksInForce s).alpha) }.setSetupDone true)
  bfdec : ∀ {s : State}, P s → P { s with
    result0 := (decodeMask s.arg).2, result1 := bfdecResult1 (decodeMask s.arg).1 (decodeMask s.arg).2 }
  lutrd : ∀ {s : State}, P s → P { s with
    result0 := (lut (lutWidthOperand s.arg) (lutIndexOperand s.arg)).setWidth 32, result1 := 0 }

section
variable {P : State → Prop} (hP : RegisterInvariant P)
include hP

theorem RegisterInvariant.congr {s t : State} (h : SameRegisters s t) (hs : P s) : P t := by
  rw [h.eq_update]; exact hP.host hs

theorem RegisterInvariant.exec {i : Instr} {s t : State} (hs : P s) (h : exec i s = .next t) : P t := by
  rcases exec_cases h with ⟨-, rfl⟩ | ⟨-, rfl⟩ | ⟨-, -, rfl⟩ | ⟨-, hv, rfl⟩ | ⟨_, -, -, rfl⟩ | ⟨o, -, -, rfl⟩ | ⟨-, rfl⟩
    | ⟨-, -, rfl⟩ | ⟨-, -, rfl⟩
  · exact hP.setErr _ hs
  · exact hP.setErr _ (hP.validate hs)
  · exact hP.setErr _ hs
  · exact hP.setErr _ (hP.setup hv hs)
  · exact hP.setErr _ hs
  · exact hP.setErr _ (hP.host hs)
  · exact hP.setErr _ (hP.bfdec hs)
  · exact hP.setErr _ hs
  · exact hP.setErr _ (hP.lutrd hs)

theorem RegisterInvariant.execute {c : Word} {s t : State} (hs : P s) (h : execute c s = .next t) : P t := by
  rcases execute_cases h with ⟨i, -, hi⟩ | ⟨-, rfl⟩
  · exact hP.exec hs hi
  · exact hP.setErr _ hs

/-- Every step keeps such a property. -/
theorem RegisterInvariant.step {s t : State} (hs : P s) (h : step s = .next t) : P t := by
  cases hp : s.pending with
  | nil =>
    have ht : t = s := by simpa [hp] using step_cases h
    exact ht ▸ hs
  | cons op rest =>
    rcases step_registers hp h with ⟨c, s₀, u, -, hs₀, hu, ht⟩ | ⟨r, v, -, -, ht⟩ | ⟨-, ht⟩ | ht
    · exact hP.congr ht (hP.execute (hP.congr hs₀ hs) hu)
    · exact hP.congr ht (hP.store r v hs)
    · exact hP.congr ht hP.reset
    · exact hP.congr ht hs

end

end Sys2Proof.Machine
end

section
/-!
SUPPORT. The word of a decoded command (30_encoding.md R62), and what each command writes to STATUS and to the other registers
(10_state.md R15 to R18, R26 to R28).
-/

namespace Sys2Proof

theorem bit_eq_zero_of_ne_one {b : BitVec 1} (h : b ≠ 1) : b = 0 := by
  revert h; revert b; decide

/-- The fields of a word that decodes are those of its instruction (30_encoding.md R60 to R62). -/
theorem fields_of_decode {c : Word} {i : Instr} (h : decode c = .ok i) :
    rsvField c = 0 ∧ ordField c = ordBit i ∧ opField c = opcode i := by
  unfold decode at h
  split_ifs at h with h1 h2 h3
  have apart : ∀ {n : BitVec 4}, (opField c).toNat = n.toNat → n ≠ 3 → ordField c = 0 ∧ opField c = n := by
    intro n hn h0
    have hop : opField c = n := BitVec.eq_of_toNat_eq hn
    have hord : ordField c ≠ 1 := fun h1 => h3 ⟨h1, hop ▸ h0⟩
    exact ⟨bit_eq_zero_of_ne_one hord, hop⟩
  refine ⟨by simpa using h2, ?_⟩
  split at h <;> cases h
  case h_4 hn => exact ⟨(bitOfOrder_orderOfBit _).symm, BitVec.eq_of_toNat_eq hn⟩
  case h_1 hn | h_2 hn | h_3 hn | h_5 hn | h_6 hn => exact apart hn (by decide)

/-- A word that decodes is the encoding of its instruction. -/
theorem encode_of_decode {c : Word} {i : Instr} (h : decode c = .ok i) : c = encode i := by
  obtain ⟨hrsv, hord, hop⟩ := fields_of_decode h
  rw [encode, ← hord, ← hop, ← hrsv, word_of_fields]

end Sys2Proof

namespace Sys2Proof.Machine

/-- What a command does to VALID, SETUP_DONE and REASON (10_state.md R15, R16, R18). -/
theorem exec_flags {i : Instr} {s t : State} (h : exec i s = .next t) :
    (t.valid = s.valid ∨ i = .validate)
      ∧ (t.setupDone = s.setupDone ∨ (i = .setup ∧ s.valid = true ∧ t.setupDone = true)
          ∨ (i = .validate ∧ t.setupDone = false))
      ∧ (t.reason = s.reason ∨ i = .validate) := by
  rcases exec_cases h with ⟨rfl, rfl⟩ | ⟨rfl, rfl⟩ | ⟨rfl, -, rfl⟩ | ⟨rfl, hv, rfl⟩ | ⟨o, rfl, -, rfl⟩ | ⟨o, rfl, -, rfl⟩
    | ⟨rfl, rfl⟩ | ⟨rfl, -, rfl⟩ | ⟨rfl, -, rfl⟩
  case inr.inl => -- VALIDATE
    exact ⟨.inr rfl, .inr (.inr ⟨rfl, by simp⟩), .inr rfl⟩
  case inr.inr.inr.inl => -- SETUP with VALID = 1
    refine ⟨.inl ?_, .inr (.inl ⟨rfl, hv, by simp⟩), .inl ?_⟩
    · rw [State.setErr_valid, State.setSetupDone_valid]; rfl
    · rw [State.setErr_reason, State.setSetupDone_reason]; rfl
  all_goals
    exact ⟨.inl (State.setErr_valid _ _), .inl (State.setErr_setupDone _ _), .inl (State.setErr_reason _ _)⟩

theorem State.reg_update_status (s : State) (w : Word) {r : Reg} (hr : r ≠ .status) :
    ({ s with status := w } : State).reg r = s.reg r := by
  revert hr; cases r <;> simp [State.reg]

theorem State.reg_update_results (s : State) (w r0 r1 : Word) {r : Reg} (hr : r ≠ .status)
    (h : ¬ (r = .result0 ∨ r = .result1)) :
    ({ s with status := w, result0 := r0, result1 := r1 } : State).reg r = s.reg r := by
  revert hr h; cases r <;> simp [State.reg]

theorem State.reg_update_channels (s : State) (w r g b a : Word) {q : Reg} (hq : q ≠ .status)
    (h : ¬ (q = .chR ∨ q = .chG ∨ q = .chB ∨ q = .chA)) :
    ({ s with status := w, chR := r, chG := g, chB := b, chA := a } : State).reg q = s.reg q := by
  revert hq h; cases q <;> simp [State.reg]

/-- What a command does to a register other than STATUS (10_state.md R26 to R28). -/
theorem exec_reg {i : Instr} {s t : State} (h : exec i s = .next t) {r : Reg} (hr : r ≠ .status) :
    t.reg r = s.reg r
      ∨ ((r = .result0 ∨ r = .result1) ∧ (i = .bfdec ∨ i = .lutrd) ∧ t.err = 0)
      ∨ ((r = .chR ∨ r = .chG ∨ r = .chB ∨ r = .chA) ∧ i = .setup ∧ s.valid = true) := by
  rcases exec_cases h with ⟨rfl, rfl⟩ | ⟨rfl, rfl⟩ | ⟨rfl, -, rfl⟩ | ⟨rfl, hv, rfl⟩ | ⟨o, rfl, -, rfl⟩ | ⟨o, rfl, -, rfl⟩
    | ⟨rfl, rfl⟩ | ⟨rfl, -, rfl⟩ | ⟨rfl, -, rfl⟩
  case inr.inr.inr.inl => -- SETUP with VALID = 1
    by_cases hq : r = .chR ∨ r = .chG ∨ r = .chB ∨ r = .chA
    · exact .inr (.inr ⟨hq, rfl, hv⟩)
    · exact .inl (State.reg_update_channels s _ _ _ _ _ hr hq)
  case inr.inr.inr.inr.inr.inl => -- READ_ROW with SETUP_DONE = 1
    exact .inl ((State.reg_update_status _ _ hr).trans (sameRegisters_update r))
  case inr.inr.inr.inr.inr.inr.inl => -- BFDEC
    by_cases hq : r = .result0 ∨ r = .result1
    · exact .inr (.inl ⟨hq, .inl rfl, State.setErr_err _ _⟩)
    · exact .inl (State.reg_update_results s _ _ _ hr hq)
  case inr.inr.inr.inr.inr.inr.inr.inr => -- LUTRD on a legal operand
    by_cases hq : r = .result0 ∨ r = .result1
    · exact .inr (.inl ⟨hq, .inr rfl, State.setErr_err _ _⟩)
    · exact .inl (State.reg_update_results s _ _ _ hr hq)
  all_goals exact .inl (State.reg_update_status s _ hr)

/-- The same for a command word: an illegal one writes ERR alone (60_exceptions.md R230). -/
theorem execute_flags {c : Word} {s t : State} (h : execute c s = .next t) :
    (t.valid = s.valid ∨ c = 0x1)
      ∧ (t.setupDone = s.setupDone ∨ (c = 0x2 ∧ s.valid = true ∧ t.setupDone = true) ∨ (c = 0x1 ∧ t.setupDone = false))
      ∧ (t.reason = s.reason ∨ c = 0x1) := by
  rcases execute_cases h with ⟨i, hi, hx⟩ | ⟨-, rfl⟩
  · obtain rfl := encode_of_decode hi
    obtain ⟨hv, hd, hr⟩ := exec_flags hx
    refine ⟨hv.imp_right ?_, hd.imp_right (.imp ?_ ?_), hr.imp_right ?_⟩
    · rintro rfl; rfl
    · rintro ⟨rfl, hup⟩; exact ⟨rfl, hup⟩
    · rintro ⟨rfl, hdown⟩; exact ⟨rfl, hdown⟩
    · rintro rfl; rfl
  · exact ⟨.inl (State.setErr_valid _ _), .inl (State.setErr_setupDone _ _), .inl (State.setErr_reason _ _)⟩

/-- The same for a command word: the results and the CH registers have the words of their commands. -/
theorem execute_reg {c : Word} {s t : State} (h : execute c s = .next t) {r : Reg} (hr : r ≠ .status) :
    t.reg r = s.reg r
      ∨ ((r = .result0 ∨ r = .result1) ∧ (c = 0x4 ∨ c = 0x5) ∧ t.err = 0)
      ∨ ((r = .chR ∨ r = .chG ∨ r = .chB ∨ r = .chA) ∧ c = 0x2 ∧ s.valid = true) := by
  rcases execute_cases h with ⟨i, hi, hx⟩ | ⟨-, rfl⟩
  · obtain rfl := encode_of_decode hi
    rcases exec_reg hx hr with heq | ⟨hq, rfl | rfl, he⟩ | ⟨hq, rfl, hv⟩
    · exact .inl heq
    · exact .inr (.inl ⟨hq, .inl rfl, he⟩)
    · exact .inr (.inl ⟨hq, .inr rfl, he⟩)
    · exact .inr (.inr ⟨hq, rfl, hv⟩)
  · exact .inl (State.reg_update_status _ _ hr)

end Sys2Proof.Machine
end

section
/-!
PROOFS. The invariants of the registers (10_state.md R13, R14, R27 to R29): each is closed under every write to a register.
-/

namespace Sys2Proof.Machine

/-! ## STATUS (10_state.md R14) -/

theorem statusLegal_reset : StatusLegal State.reset := by
  refine ⟨?_, ?_, ?_, ?_, ?_⟩ <;> decide

theorem statusLegal_invariant : RegisterInvariant StatusLegal where
  host h := h
  reset := statusLegal_reset
  store {s} r v h := by
    have hs : StatusLegal (s.storeReg v r) := h.congr (State.storeReg_keeps s v r).1
    cases hr : r.endsSession
    · rw [hostStore_of_not_endsSession hr]; exact hs
    · rw [hostStore_of_endsSession hr]; exact (hs.setValid false).setSetupDone false
  setErr e h := h.setErr e
  validate h := ((h.setReason _).setValid _).setSetupDone false
  setup _ h := (h.congr rfl).setSetupDone true
  bfdec h := h
  lutrd h := h

/-- Settles O47: STATUS is written by fields alone, and each field write keeps it legal. -/
theorem statusStaysLegal : Obligations.StatusStaysLegal :=
  fun _ _ hs h => statusLegal_invariant.step hs h

/-! ## RESULT1 (10_state.md R27) -/

theorem Result1Legal.congr {s t : State} (h : Result1Legal s) (e : t.result1 = s.result1) : Result1Legal t := by
  simpa only [Result1Legal, e] using h

theorem result1Legal_zero {s : State} (h : s.result1 = 0) : Result1Legal s := by
  unfold Result1Legal; rw [h]; decide

theorem result1Legal_invariant : RegisterInvariant Result1Legal where
  host h := h
  reset := result1Legal_zero rfl
  store {s} r v h := h.congr <| by
    have hr : ¬ (Reg.result1 = r ∧ r.access = .rw) := by rintro ⟨rfl, hr⟩; exact absurd hr (by decide)
    exact (hostStore_reg r v s (q := .result1) (by decide)).trans (if_neg hr)
  setErr _ h := h
  validate h := h
  setup _ h := h
  bfdec _ := bfdecResult1_reserved _ _ (decodeMask_shift_lt _)
  lutrd _ := result1Legal_zero rfl

/-- Settles O48: only BFDEC and LUTRD write RESULT1, the one its packed fields and the other 0. -/
theorem resultOneStaysLegal : Obligations.ResultOneStaysLegal :=
  fun _ _ hs h => result1Legal_invariant.step hs h

/-! ## The CH registers (10_state.md R28, R29) -/

theorem ChannelsLegal.congr {s t : State} (h : ChannelsLegal s)
    (e : ∀ r, r = .chR ∨ r = .chG ∨ r = .chB ∨ r = .chA → t.reg r = s.reg r) : ChannelsLegal t := by
  have eR : t.chR = s.chR := e .chR (by decide)
  have eG : t.chG = s.chG := e .chG (by decide)
  have eB : t.chB = s.chB := e .chB (by decide)
  have eA : t.chA = s.chA := e .chA (by decide)
  simpa only [ChannelsLegal, eR, eG, eB, eA] using h

/-- 0 is the ChannelSpec of no mask. -/
theorem channelLegal_zero : ChannelLegal 0 := channelLegal_pack_resolve 0

theorem channelsLegal_invariant : RegisterInvariant ChannelsLegal where
  host h := h
  reset := ⟨channelLegal_zero, channelLegal_zero, channelLegal_zero, channelLegal_zero⟩
  store {s} r v h := h.congr fun q hq => by
    have hr : ¬ (q = r ∧ r.access = .rw) := by rintro ⟨rfl, hr⟩; rcases hq with rfl | rfl | rfl | rfl <;> cases hr
    exact (hostStore_reg r v s (by rintro rfl; simp at hq)).trans (if_neg hr)
  setErr _ h := h
  validate h := h
  setup _ _ := ⟨channelLegal_pack_resolve _, channelLegal_pack_resolve _, channelLegal_pack_resolve _,
    channelLegal_pack_resolve _⟩
  bfdec h := h
  lutrd h := h

/-- Settles O49: only SETUP writes the CH registers, and the packed ChannelSpec of any mask is legal. -/
theorem channelsStayLegal : Obligations.ChannelsStayLegal :=
  fun _ _ hs h => channelsLegal_invariant.step hs h

/-! ## The session flags (10_state.md R13; 44_channel_resolver.md R166; 45_scanline_reader.md R181) -/

/-- With both flags down nothing is claimed. -/
theorem sessionSound_of_flags_down {s : State} (hv : s.valid = false) (hd : s.setupDone = false) : SessionSound s :=
  ⟨by simp [hd], by simp [hv], by simp [hd]⟩

theorem SessionSound.setErr {s : State} (h : SessionSound s) (e : CmdError) : SessionSound (s.setErr e) := by
  simp only [SessionSound, State.setErr_valid, State.setErr_setupDone, State.setErr_reason]
  exact h

/-- A host store that does not end the session reaches no register of the session. -/
theorem SessionSound.storeReg {s : State} (h : SessionSound s) {r : Reg} (hr : r.endsSession = false) (v : Word) :
    SessionSound (s.storeReg v r) := by
  cases r <;> first | exact h | cases hr

theorem sessionSound_invariant : RegisterInvariant SessionSound where
  host h := h
  reset := sessionSound_of_flags_down rfl rfl
  store {s} r v h := by
    cases hr : r.endsSession
    · rw [hostStore_of_not_endsSession hr]; exact h.storeReg hr v
    · rw [hostStore_of_endsSession hr]
      exact sessionSound_of_flags_down (State.endSession_valid _) (State.endSession_setupDone _)
  setErr e h := h.setErr e
  validate {s} _ := by
    refine ⟨by simp, fun hv => ?_, by simp⟩
    have hok : validateFormat s = .ok := by simpa using hv
    exact ⟨(validateFormat_ok_iff s).mp hok, by simp [hok, Reason.code]⟩
  setup {s} hv h := by
    obtain ⟨-, hfmt, -⟩ := h
    refine ⟨fun _ => ?_, fun _ => ?_, fun _ => ⟨rfl, rfl, rfl, rfl⟩⟩
    · rw [State.setSetupDone_valid]; exact hv
    · rw [State.setSetupDone_reason]; exact hfmt hv
  bfdec h := h
  lutrd h := h

/-- Settles O50: VALID rises with an accepted format in the registers, SETUP_DONE with the CH registers of the masks in force, and
each store to a register they speak of takes both down. -/
theorem sessionStaysSound : Obligations.SessionStaysSound :=
  fun _ _ hs h => sessionSound_invariant.step hs h

/-- Settles O46: each invariant holds of the cleared registers, and an empty memory is in canonical form. -/
theorem resetMeetsTheInvariants : Obligations.ResetMeetsTheInvariants :=
  ⟨statusLegal_invariant.reset, result1Legal_invariant.reset, channelsLegal_invariant.reset, sessionSound_invariant.reset,
    List.Pairwise.nil, List.Pairwise.nil⟩

end Sys2Proof.Machine
end

section
/-!
PROOFS. The register window (10_state.md R10 to R13, R32) and the format the validator accepts (43_format_validator.md R147).
-/

namespace Sys2Proof.Machine

/-- Settles O8, by evaluating the offsets of the map. -/
theorem registerMapOffsets : Obligations.RegisterMapOffsets := by
  unfold Obligations.RegisterMapOffsets; decide

/-- Settles O13: no register is left out of the reset state. -/
theorem resetValuesAreZero : Obligations.ResetValuesAreZero := State.reset_reg

theorem busRead_unmapped {o : WordOffset} (h : Reg.atOffset o = none) (s : State) : busRead o s = 0 := by
  simp only [busRead, h]

theorem busWrite_unmapped {o : WordOffset} (h : Reg.atOffset o = none) (v : Word) (s : State) :
    busWrite o v s = .next s := by
  simp only [busWrite, h]

/-- Settles O11: the offsets from 0x4C on hold no register. -/
theorem unmappedWriteIsIgnored : Obligations.UnmappedWriteIsIgnored := by
  intro s rest o v ho hp
  rw [step_of_cons hp]
  exact busWrite_unmapped ((Reg.atOffset_eq_none_iff o).mpr ho) v _

/-- Settles O9, by the register at the offset, if there is one. -/
theorem registerReadReturnsTheRegister : Obligations.RegisterReadReturnsTheRegister := by
  intro s rest o hp
  rw [step_of_cons hp]
  simp only [perform, State.returning]
  congr 2
  cases ho : Reg.atOffset o with
  | none =>
    have hlow := (Reg.atOffset_eq_none_iff o).mp ho
    rw [busRead_unmapped ho]
    split
    case h_20 => rfl
    all_goals omega
  | some r =>
    obtain rfl := Reg.offset_of_atOffset ho
    rw [busRead_reg]
    cases r <;> rfl

/-- The registers whose write ends the session, listed (10_state.md R13). -/
theorem Reg.endsSession_iff_mem (r : Reg) : r.endsSession = true ↔
    r ∈ [Reg.width, .height, .depth, .compression, .maskR, .maskG, .maskB, .maskA] := by
  cases r <;> decide

/-- The read-only registers, listed (10_state.md R10). -/
theorem Reg.access_eq_rw_iff_notMem {r : Reg} (h : r ≠ .cmd) :
    r.access = .rw ↔ r ∉ [Reg.status, .result0, .result1, .chR, .chG, .chB, .chA] := by
  revert h; cases r <;> decide

/-- Settles O10: the step is the store; it reaches the register by its access class and STATUS by the end of the session. -/
theorem registerWriteStoresAndEndsTheSession : Obligations.RegisterWriteStoresAndEndsTheSession := by
  intro s rest r v hr hp
  obtain ⟨hsrc, hout, -, hrd⟩ := hostStore_keeps r v s
  refine ⟨{ hostStore r v s with pending := rest }, ?_, fun q hq => ?_, ?_,
    ⟨fun i => State.sourceByte_congr (by rw [hsrc]), fun j => State.outputByte_congr (by rw [hout])⟩, rfl, hrd⟩
  · rw [step_of_cons hp, ← hostStore_pending]; exact busWrite_reg hr v _
  · simp only [← Reg.access_eq_rw_iff_notMem hr]
    exact (sameRegisters_update q).trans (hostStore_reg r v s hq)
  · rcases hostStore_status_cases r v s with ⟨he, hv, hd, -, -, hk⟩ | ⟨he, hst⟩
    · rw [if_pos (r.endsSession_iff_mem.mp he)]; exact ⟨hv, hd, hk⟩
    · rw [if_neg (by rw [← Reg.endsSession_iff_mem, he]; decide)]; exact hst

/-- Settles O28: VALID takes the validator's verdict, which is OK exactly on the accepted formats. -/
theorem validateAcceptsExactlyTheFormats : Obligations.ValidateAcceptsExactlyTheFormats :=
  fun s => ⟨_, rfl, by simp [validateFormat_ok_iff]⟩

end Sys2Proof.Machine
end

section
/-!
PROOFS. The writers of each register and of each field of STATUS (10_state.md R11, R15 to R18, R26 to R28).
-/

namespace Sys2Proof.Machine

/-- Settles O44: of what a step can do to a register, each case names its writer. -/
theorem registersHaveOnlyTheirWriters : Obligations.RegistersHaveOnlyTheirWriters := by
  intro s t op rest r hp h hr hne
  rcases step_registers hp h with ⟨c, s₀, u, hc, hs, hu, ht⟩ | ⟨q, v, -, rfl, ht⟩ | ⟨hreset, ht⟩ | ht
  · rw [ht r, ← hs r] at hne
    rw [ht.err, ← hs.valid]
    rcases execute_reg hu hr with heq | ⟨hq, rfl | rfl, he⟩ | ⟨hq, rfl, hv⟩
    · exact absurd heq hne
    · exact .inr (.inl ⟨hq, .inl hc, he⟩)
    · exact .inr (.inl ⟨hq, .inr hc, he⟩)
    · exact .inr (.inr (.inl ⟨hq, hc, hv⟩))
  · have hreg := (ht r).trans (hostStore_reg q v s hr)
    split_ifs at hreg with hq
    · obtain ⟨rfl, hrw⟩ := hq
      exact .inl ⟨hrw, by rw [hreg]⟩
    · exact absurd hreg hne
  · exact .inr (.inr (.inr ⟨hreset, (ht r).trans (State.reset_reg r)⟩))
  · exact absurd (ht r) hne

/-- Settles O43: a command, a session-ending store and reset are the writers of STATUS, and each names the fields it writes. -/
theorem statusFieldsHaveOnlyTheirWriters : Obligations.StatusFieldsHaveOnlyTheirWriters := by
  intro s t op rest hp h
  rcases step_registers hp h with ⟨c, s₀, u, hc, hs, hu, ht⟩ | ⟨r, v, -, rfl, ht⟩ | ⟨hreset, ht⟩ | ht
  · obtain ⟨hv, hd, hr⟩ := execute_flags hu
    rw [ht.valid, ht.setupDone, ht.reason, ← hs.valid, ← hs.setupDone, ← hs.reason, hc]
    refine ⟨fun hne => .inl ?_, fun hne => ?_, fun _ => .inl rfl, fun hne => .inl ?_⟩
    · rw [hv.resolve_left hne]
    · rcases hd.resolve_left hne with ⟨rfl, hvalid, hup⟩ | ⟨rfl, hdown⟩
      · exact .inl ⟨rfl, hvalid, hup⟩
      · exact .inr ⟨.inl rfl, hdown⟩
    · rw [hr.resolve_left hne]
  · rw [ht.valid, ht.setupDone, ht.err, ht.reason]
    rcases hostStore_status_cases r v s with ⟨he, hv, hd, herr, hreason, -⟩ | ⟨-, hst⟩
    · have hends : (HostOp.regWrite r.offset v).endsSession := ⟨r, v, he, rfl⟩
      exact ⟨fun _ => .inr ⟨.inl hends, hv⟩, fun _ => .inr ⟨.inr (.inl hends), hd⟩, fun hne => absurd herr hne,
        fun hne => absurd hreason hne⟩
    · simp only [State.valid, State.setupDone, State.err, State.reason, hst, ne_eq, not_true_eq_false, false_implies,
        and_self]
  · exact ⟨fun _ => .inr ⟨.inr hreset, ht.valid⟩, fun _ => .inr ⟨.inr (.inr hreset), ht.setupDone⟩, fun _ => .inr hreset,
      fun _ => .inr ⟨hreset, ht.reason⟩⟩
  · exact ⟨fun hne => absurd ht.valid hne, fun hne => absurd ht.setupDone hne, fun hne => absurd ht.err hne,
      fun hne => absurd ht.reason hne⟩

end Sys2Proof.Machine
end

section
/-!
SUPPORT. The bytes of a READ_ROW by its pixels, the packed value of a pixel, and the colour of a run of ones
(20_memory.md R44, R56; 42_scale_lut.md R120; 45_scanline_reader.md R180, R185 to R188; 46_pixel_packer.md R200 to R203).
-/

namespace Sys2Proof

/-- The decoder gives back the instruction of an encoded word. -/
theorem decode_encode (i : Instr) : decode (encode i) = .ok i := by
  cases i with
  | readrow ord => cases ord <;> rfl
  | nop | validate | setup | bfdec | lutrd => rfl

end Sys2Proof

namespace Sys2Proof.Machine

@[simp] theorem execute_encode (i : Instr) (s : State) : execute (encode i) s = exec i s := by
  simp only [execute, decode_encode]

/-! ## The output bytes of a pixel, and what its source bytes give -/

section
variable {s t : State} {ord : Order} (h : exec (.readrow ord) s = .next t) (hdone : s.setupDone = true)
include h hdone

/-- What a READ_ROW with SETUP_DONE = 1 does to the registers. -/
theorem sameRegisters_of_readrow : SameRegisters (s.setErr .none) t := by
  rw [exec_readrow ord hdone] at h
  cases h
  exact sameRegisters_update

/-- An output byte of the row after a READ_ROW is a byte of its pixel. -/
theorem outputByte_of_readrow {j : Nat} (hj : (j : Int) < 4 * s.width.toInt) :
    t.outputByte j = (rowPixel s ord (j / 4)).byte (j % 4) := by
  rw [exec_readrow ord hdone] at h
  cases h
  exact (outputByte_readrow s ord j).1 hj

/-- Byte `k` of pixel `x` after a READ_ROW. -/
theorem outputByte_of_readrow_pixel {x k : Nat} (hx : (x : Int) < s.width.toInt) (hk : k < 4) :
    t.outputByte (4 * x + k) = (rowPixel s ord x).byte k := by
  rw [outputByte_of_readrow h hdone (by omega), show (4 * x + k) / 4 = x by omega, show (4 * x + k) % 4 = k by omega]

end

/-- A pixel none of whose bytes another agent changes is the one of the source as it was (20_memory.md R56). -/
theorem rowPixel_tearSource (s : State) (ord : Order) (x n : Nat) (changes : List (BitVec 32 × Byte))
    (h : ∀ c ∈ changes, ∀ k : Nat, k < s.bpp → (c.1.toNat : Int) ≠ pixelOffset s x + k) :
    rowPixel { s with source := tearSource n changes s.source } ord x = rowPixel s ord x := by
  refine rowPixel_congr (s' := s) ord x rfl rfl rfl rfl rfl rfl rfl rfl fun k hk i hi _ => ?_
  refine State.sourceByte_congr (byteAt_tearSource s.source fun c hc hci => ?_)
  exact h c hc k hk (by rw [hci, ← hi]; rfl)

/-- The packed value of a pixel that does not start below the buffer: the little-endian sum of its bytes, those at or past
the length taken as 0. -/
theorem toNat_fetchPixel (s : State) (o : Nat) (h : s.bpp ∈ [2, 3, 4]) : (fetchPixel s o).toNat =
    ∑ k ∈ Finset.range s.bpp, if o + k < s.bufLen.toNat then (s.sourceByte (o + k)).toNat * 256 ^ k else 0 := by
  have hlen : s.bufferLength = s.bufLen.toNat := rfl
  by_cases hin : inBounds o s.bpp s.bufferLength = true
  · have hb : ∀ k : Nat, (srcByte s ((o : Int) + k)).toNat * 256 ^ k =
        if o + k < s.bufLen.toNat then (s.sourceByte (o + k)).toNat * 256 ^ k else 0 := fun k => by
      rw [toNat_srcByte, ite_mul, zero_mul]
    simp only [fetchPixel, if_pos hin, ← hb]
    simp only [List.mem_cons, List.not_mem_nil, or_false] at h
    rcases h with h | h | h <;>
      simp [h, memRead, toNat_packLittleEndian, Finset.sum_range_succ]
  · have hout : s.bufLen.toNat + s.bpp ≤ o := by simp [inBounds] at hin; omega
    simp only [fetchPixel, if_neg hin]
    refine (Finset.sum_eq_zero fun k _ => if_neg ?_).symm
    omega

/-- The alpha byte as a number, by the colour bytes as numbers. -/
theorem toNat_alphaOf (r g b : Byte) :
    (alphaOf r g b).toNat = if r.toNat = 0 ∧ g.toNat = 0 ∧ b.toNat = 0 then 0 else 255 := by
  have hz : ∀ v : Byte, v = 0 ↔ v.toNat = 0 := fun v => BitVec.toNat_inj.symm
  simp only [alphaOf, ne_eq, hz]
  by_cases h : r.toNat = 0 ∧ g.toNat = 0 ∧ b.toNat = 0
  · rw [if_pos h, if_neg (by omega)]; rfl
  · rw [if_neg h, if_pos (by omega)]; rfl

/-! ## The colour a run of ones selects -/

/-- A channel whose mask is a run of `w` ones at bit `sh`: the field it selects, expanded to 8 bits and rounded down. -/
theorem toNat_scale_of_run (p : Word) {m : Word} {w sh : Nat} (h1 : 1 ≤ w) (h8 : w ≤ 8)
    (hm : m.toNat = (2 ^ w - 1) * 2 ^ sh) :
    (scale p (pack (resolve m))).toNat = p.toNat / 2 ^ sh % 2 ^ w * 255 / (2 ^ w - 1) := by
  obtain ⟨hlo, hrun⟩ := lowest_of_run h1 hm
  have hpow : 2 ^ w ≤ 2 ^ 8 := Nat.pow_le_pow_right (by omega) h8
  obtain ⟨-, hdesc⟩ := describesMask_pack_resolve m
  obtain ⟨hshift, hmask, hwidth, hbound, -⟩ := hdesc sh hlo
  have hw : (chWidth (pack (resolve m))).toNat = w := by
    obtain ⟨w', -, -, hrun', hpop, -⟩ := bindable_width (bindable_of_width h1 h8 hrun)
    have hww : 2 ^ w' = 2 ^ w := by have := Nat.two_pow_pos w; have := Nat.two_pow_pos w'; omega
    rw [hwidth (by omega), ← popcount32_shift hlo, hpop]
    exact Nat.pow_right_injective le_rfl hww
  have hmask' : (chMask (pack (resolve m))).toNat = 2 ^ w - 1 := by
    rw [hmask, BitVec.toNat_setWidth, hrun, Nat.mod_eq_of_lt (by omega)]
  have hraw := toNat_extract p hmask' h8
  rw [hshift] at hraw
  have hlt : (extract p (pack (resolve m))).toNat < 2 ^ w := by rw [hraw]; exact Nat.mod_lt _ (Nat.two_pow_pos w)
  rw [scale, if_pos (hbound.mpr ⟨w, h1, h8, hrun⟩), hw, toNat_lut h1 h8 hlt, hraw]

end Sys2Proof.Machine
end

section
/-!
SUPPORT. What a command and a step do to the two memories, said once (20_memory.md R40, R46; 70_reset_and_hazards.md R262).
-/

namespace Sys2Proof.Machine

/-- A command that changes an output byte is a READ_ROW with SETUP_DONE = 1, and the byte is one of its row. -/
theorem exec_outputByte {i : Instr} {s t : State} (h : exec i s = .next t) {a : Nat} (hne : t.outputByte a ≠ s.outputByte a) :
    (∃ ord, i = .readrow ord) ∧ s.setupDone = true ∧ (a : Int) < 4 * s.width.toInt := by
  rcases exec_cases h with ⟨-, rfl⟩ | ⟨-, rfl⟩ | ⟨-, -, rfl⟩ | ⟨-, -, rfl⟩ | ⟨_, -, -, rfl⟩ | ⟨ord, hi, hdone, rfl⟩ | ⟨-, rfl⟩
    | ⟨-, -, rfl⟩ | ⟨-, -, rfl⟩
  case inr.inr.inr.inr.inr.inl => -- READ_ROW with SETUP_DONE = 1
    refine ⟨⟨ord, hi⟩, hdone, ?_⟩
    by_contra hge
    exact hne ((outputByte_readrow s ord a).2 (by omega))
  all_goals exact absurd rfl hne

/-- The same for a command word, by the two words of READ_ROW (30_encoding.md R62). -/
theorem execute_outputByte {c : Word} {s t : State} (h : execute c s = .next t) {a : Nat}
    (hne : t.outputByte a ≠ s.outputByte a) :
    (c = 0x3 ∨ c = 0x13) ∧ s.setupDone = true ∧ (a : Int) < 4 * s.width.toInt := by
  rcases execute_cases h with ⟨i, hi, hx⟩ | ⟨-, rfl⟩
  · obtain ⟨⟨ord, rfl⟩, hrow⟩ := exec_outputByte hx hne
    refine ⟨?_, hrow⟩
    rw [encode_of_decode hi]
    cases ord
    · exact .inl rfl
    · exact .inr rfl
  · exact absurd rfl hne

theorem execute_source {c : Word} {s t : State} (h : execute c s = .next t) : t.source = s.source := by
  rcases execute_cases h with ⟨i, -, hx⟩ | ⟨-, rfl⟩
  · obtain ⟨-, hsrc, -⟩ := exec_keeps hx
    exact hsrc
  · rfl

/-- A step with a transaction keeps both memories, or it is a host store to one of them, or it runs a command, to its end or to
a reset, that leaves each output byte old or new, while other agents may change source bytes. -/
theorem step_memories {s t : State} {op : HostOp} {rest : List HostOp} (hp : s.pending = op :: rest) (h : step s = .next t) :
    (t.source = s.source ∧ t.output = s.output)
    ∨ (∃ i b, op = .sourceStore i b ∧ t.source = Memory.put s.source i.toNat b ∧ t.output = s.output)
    ∨ (∃ j b, op = .outputStore j b ∧ t.source = s.source ∧ t.output = Memory.put s.output j.toNat b)
    ∨ (∃ c s₀ u, (op.command = some c ∨ ∃ d, op = .disturbed c d ∧ d.cut = true)
        ∧ SameRegisters s s₀ ∧ s₀.output = s.output ∧ execute c s₀ = .next u
        ∧ (t.source = s.source ∨ ∃ d, op = .disturbed c d ∧ t.source = Memory.putAll s.source d.changes)
        ∧ ∀ a, t.outputByte a = s.outputByte a ∨ t.outputByte a = u.outputByte a) := by
  have hc := step_cases h
  simp only [hp, List.cons.injEq, reduceCtorEq, false_and, false_or] at hc
  obtain ⟨rest', s₀, rfl, hc⟩ := hc
  rcases hc with ⟨c, ⟨rfl, rfl⟩, hx⟩ | ⟨r, v, -, ⟨rfl, rfl⟩, rfl⟩ | ⟨o, v, -, ⟨rfl, rfl⟩, rfl⟩ | ⟨o, ⟨rfl, rfl⟩, rfl⟩
    | ⟨i, b, ⟨rfl, rfl⟩, rfl⟩ | ⟨i, ⟨rfl, rfl⟩, rfl⟩ | ⟨j, b, ⟨rfl, rfl⟩, rfl⟩ | ⟨j, ⟨rfl, rfl⟩, rfl⟩ | ⟨⟨rfl, rfl⟩, rfl⟩
    | ⟨c, d, u, ⟨rfl, rfl⟩, hx, rfl⟩
  case inl => -- a command word
    exact .inr (.inr (.inr ⟨c, { s with pending := rest }, t, .inl rfl, sameRegisters_update, rfl, hx,
      .inl (execute_source (s := { s with pending := rest }) hx), fun _ => .inr rfl⟩))
  case inr.inl => -- a store to a register
    obtain ⟨hsrc, hout, -⟩ := hostStore_keeps r v { s with pending := rest }
    exact .inl ⟨hsrc, hout⟩
  case inr.inr.inr.inr.inl => exact .inr (.inl ⟨i, b, rfl, rfl, rfl⟩)
  case inr.inr.inr.inr.inr.inr.inl => exact .inr (.inr (.inl ⟨j, b, rfl, rfl, rfl⟩))
  case inr.inr.inr.inr.inr.inr.inr.inr.inr => -- a disturbed command
    refine .inr (.inr (.inr ⟨c, { s with pending := rest, source := tearSource s.draws d.changes s.source }, u, ?_,
      sameRegisters_update, rfl, hx, .inr ⟨d, rfl, rfl⟩, ?_⟩))
    · cases hd : d.cut
      · exact .inl (by simp [HostOp.command, hd])
      · exact .inr ⟨d, rfl, hd⟩
    · intro a
      cases d.cut
      · exact .inr rfl
      · rcases byteAt_mixOutput s.draws s.output u.output (4 * s.rowPixels) a with hold | ⟨-, hnew, -⟩
        · exact .inl (State.outputByte_congr hold)
        · exact .inr (State.outputByte_congr hnew)
  all_goals exact .inl ⟨rfl, rfl⟩

end Sys2Proof.Machine
end

section
/-!
PROOFS. The memories: who writes them, what READ_ROW reads of them, and what a race reaches (20_memory.md R40 to R47, R56).
-/

namespace Sys2Proof.Machine

/-- Settles O34: each output byte of the row is its pixel's, and a pixel depends on the registers and the bytes in the buffer. -/
theorem readRowDependsOnlyOnTheBuffer : Obligations.ReadRowDependsOnlyOnTheBuffer := by
  intro s s' ord hs hs' hw hh hd hst hb ha hr hg hbl hm
  obtain ⟨t, ht⟩ := exec_next (.readrow ord) s
  obtain ⟨t', ht'⟩ := exec_next (.readrow ord) s'
  refine ⟨t, t', ht, ht', fun j hj => ?_⟩
  have hpixel : rowPixel s ord (j / 4) = rowPixel s' ord (j / 4) :=
    rowPixel_congr ord _ hh hd hst hb ha hr hg hbl fun _ _ i _ hi => hm i hi
  rw [outputByte_of_readrow ht hs hj, outputByte_of_readrow ht' hs' (hw ▸ hj), hpixel]

/-- Settles O40: the checks of SETUP and LUTRD look at no memory, and the other commands have none. -/
theorem otherCommandsTouchNoMemory : Obligations.OtherCommandsTouchNoMemory := by
  intro i s m m' hi
  cases i with
  | readrow ord => exact absurd rfl (hi ord)
  | nop | validate | bfdec => exact ⟨_, rfl, rfl, rfl, rfl⟩
  | setup =>
    by_cases hv : s.valid = true
    · exact ⟨_, if_pos hv, rfl, rfl, if_pos hv⟩
    · exact ⟨_, if_neg hv, rfl, rfl, if_neg hv⟩
  | lutrd =>
    by_cases hl : lutOperandLegal s.arg = true
    · exact ⟨_, if_pos hl, rfl, rfl, if_pos hl⟩
    · exact ⟨_, if_neg hl, rfl, rfl, if_neg hl⟩

/-- Settles O45: of what a step can do to the memories, each case names its writer. -/
theorem memoriesHaveOnlyTheirWriters : Obligations.MemoriesHaveOnlyTheirWriters := by
  intro s t op rest a hp h
  have source_kept : t.source = s.source → t.sourceByte a = s.sourceByte a := fun e => State.sourceByte_congr (by rw [e])
  have output_kept : t.output = s.output → t.outputByte a = s.outputByte a := fun e => State.outputByte_congr (by rw [e])
  rcases step_memories hp h with ⟨hsrc, hout⟩ | ⟨i, b, rfl, hsrc, hout⟩ | ⟨j, b, rfl, hsrc, hout⟩
    | ⟨c, s₀, u, hop, hregs, hs₀, hu, hsrc, hout⟩
  · exact ⟨fun hne => absurd (source_kept hsrc) hne, fun hne => absurd (output_kept hout) hne⟩
  · refine ⟨fun hne => .inl ⟨i, b, rfl, ?_⟩, fun hne => absurd (output_kept hout) hne⟩
    by_contra hi
    exact hne (State.sourceByte_congr (by simp [hsrc, Ne.symm hi]))
  · refine ⟨fun hne => absurd (source_kept hsrc) hne, fun hne => .inl ⟨j, b, rfl, ?_⟩⟩
    by_contra hj
    exact hne (State.outputByte_congr (by simp [hout, Ne.symm hj]))
  · refine ⟨fun hne => .inr ?_, fun hne => .inr ⟨c, hop, ?_⟩⟩
    · obtain ⟨d, rfl, hput⟩ := hsrc.resolve_left fun e => hne (source_kept e)
      refine ⟨c, d, rfl, ?_⟩
      by_contra hnone
      refine hne (State.sourceByte_congr ?_)
      rw [hput, Memory.byteAt_putAll_of_notMem _ _ _ fun x hx hxa => hnone ⟨x, hx, hxa⟩]
    · have hold : s₀.outputByte a = s.outputByte a := State.outputByte_congr (by rw [hs₀])
      have hwidth : s₀.width = s.width := hregs .width
      have hchanged : u.outputByte a ≠ s₀.outputByte a := by
        rw [hold, ← (hout a).resolve_left hne]; exact hne
      rw [← hregs.setupDone, ← hwidth]
      exact execute_outputByte hu hchanged

/-- Settles O41: the core's view of the source differs at the changed indices alone, and a pixel depends on its own bytes. -/
theorem sourceRaceTouchesOnlyItsBytes : Obligations.SourceRaceTouchesOnlyItsBytes := by
  intro s u rest ord d hp hcut hdone hu
  obtain ⟨v, hv⟩ := exec_next (.readrow ord) { s with pending := rest, source := tearSource s.draws d.changes s.source }
  have hstep := (step_of_cons hp).trans (disturbed_of (s := { s with pending := rest }) ((execute_encode _ _).trans hv))
  simp only [hcut] at hstep
  refine ⟨_, hstep, fun r => ?_, fun i hi => ?_, fun x hx hapart k hk => ?_⟩
  · have hreg := sameRegisters_of_readrow hv hdone r
    rw [sameRegisters_of_readrow hu hdone r]
    exact (sameRegisters_update r).trans hreg
  · exact State.sourceByte_congr (Memory.byteAt_putAll_of_notMem _ _ _ hi)
  · refine (outputByte_of_readrow_pixel hv hdone hx hk).trans ?_
    rw [outputByte_of_readrow_pixel hu hdone hx hk]
    exact congrArg (PixelBytes.byte · k) (rowPixel_tearSource { s with pending := rest } ord x _ _ hapart)

/-- The colours of a pixel of an Uncompressed image that lies in the buffer (44_channel_resolver.md R162): the 5-5-5 fields
expanded at depth 16, the pixel's own bytes at depths 24 and 32. -/
theorem toNat_scale_uncompressed {s : State} (hs : SessionSound s) (hdone : s.setupDone = true) (hc : s.compression = 0) {o : Nat}
    (ho : o + s.depth.toNat / 8 ≤ s.bufLen.toNat) :
    let p16 := (s.sourceByte o).toNat + 256 * (s.sourceByte (o + 1)).toNat
    (scale (fetchPixel s o) s.chR).toNat =
        (if s.depth = 16 then p16 / 1024 % 32 * 255 / 31 else (s.sourceByte (o + 2)).toNat)
      ∧ (scale (fetchPixel s o) s.chG).toNat =
        (if s.depth = 16 then p16 / 32 % 32 * 255 / 31 else (s.sourceByte (o + 1)).toNat)
      ∧ (scale (fetchPixel s o) s.chB).toNat = (if s.depth = 16 then p16 % 32 * 255 / 31 else (s.sourceByte o).toNat) := by
  obtain ⟨hvalid, hformat, hresolved⟩ := hs
  obtain ⟨⟨-, -, -, -, hdepth, -⟩, -⟩ := hformat (hvalid hdone)
  obtain ⟨hR, hG, hB, -⟩ := hresolved hdone
  have hbpp : s.bpp = s.depth.toNat / 8 := rfl
  have hp : (fetchPixel s o).toNat = ∑ k ∈ Finset.range s.bpp, (s.sourceByte (o + k)).toNat * 256 ^ k := by
    rw [toNat_fetchPixel s o (by rw [hbpp]; rcases hdepth with h | h | h <;> rw [h] <;> decide)]
    refine Finset.sum_congr rfl fun k hk => if_pos ?_
    have := Finset.mem_range.mp hk
    omega
  have hbyte : ∀ i, (s.sourceByte i).toNat < 256 := fun i => (s.sourceByte i).isLt
  have h0 := hbyte o; have h1 := hbyte (o + 1); have h2 := hbyte (o + 2)
  rw [masksInForce_eq, if_neg (by rw [hc]; decide)] at hR hG hB
  by_cases h16 : s.depth = 16
  · rw [if_pos h16] at hR hG hB
    simp only [hR, hG, hB, if_pos h16]
    rw [toNat_scale_of_run (w := 5) (sh := 10) _ (by omega) (by omega) (by decide),
      toNat_scale_of_run (w := 5) (sh := 5) _ (by omega) (by omega) (by decide),
      toNat_scale_of_run (w := 5) (sh := 0) _ (by omega) (by omega) (by decide), hp, hbpp, h16]
    simp [Finset.sum_range_succ, Nat.mul_comm]
  · rw [if_neg h16] at hR hG hB
    simp only [hR, hG, hB, if_neg h16]
    rw [toNat_scale_of_run (w := 8) (sh := 16) _ (by omega) (by omega) (by decide),
      toNat_scale_of_run (w := 8) (sh := 8) _ (by omega) (by omega) (by decide),
      toNat_scale_of_run (w := 8) (sh := 0) _ (by omega) (by omega) (by decide), hp, hbpp]
    rcases hdepth.resolve_left h16 with h | h <;> rw [h] <;> simp [Finset.sum_range_succ] <;> omega

/-- Settles O39: the row's bytes are its pixels', and a pixel's bytes are its colours in the order ORD selects, and their alpha. -/
theorem uncompressedRowIsTheImageRow : Obligations.UncompressedRowIsTheImageRow := by
  intro s ord hs hdone hc
  obtain ⟨t, ht⟩ := exec_next (.readrow ord) s
  refine ⟨t, ht, fun x o hx hoff hbuf => ?_⟩
  obtain ⟨hr, hg, hb⟩ := toNat_scale_uncompressed hs hdone hc hbuf
  have hpixel : rowPixel s ord x = pixelBytes s (fetchPixel s o) ord := by rw [hoff]; rfl
  have hbyte : ∀ k < 4, t.outputByte (4 * x + k) = (pixelBytes s (fetchPixel s o) ord).byte k := fun k hk =>
    hpixel ▸ outputByte_of_readrow_pixel ht hdone hx hk
  have hfirst : t.outputByte (4 * x) = (pixelBytes s (fetchPixel s o) ord).byte 0 := hbyte 0 (by omega)
  rw [hfirst, hbyte 1 (by omega), hbyte 2 (by omega), hbyte 3 (by omega)]
  simp only [← hr, ← hg, ← hb, ← toNat_alphaOf]
  cases ord <;> exact ⟨rfl, rfl, rfl, rfl⟩

end Sys2Proof.Machine
end

section
/-!
SUPPORT. Decoding as the inverse of encoding (30_encoding.md R60 to R62, R66), an illegal command word (40_command_interface.md R81),
and the numbers of the host's program lines as words (30_encoding.md R64, R67, R68).
-/

namespace Sys2Proof

/-- No instruction is left out: no field of one can be ill formed (30_encoding.md R61). -/
theorem Instr.wellFormed_eq_true (i : Instr) : i.wellFormed = true := by cases i <;> rfl

/-- The decoder accepts the encodings alone, and gives back what was encoded. -/
theorem decode_eq_ok_iff {c : Word} {i : Instr} : decode c = .ok i ↔ encode i = c := by
  constructor
  · exact fun h => (encode_of_decode h).symm
  · rintro rfl; exact decode_encode i

/-- The full command words, each with its command (30_encoding.md R62). -/
def commandWords : List (Word × Instr) :=
  [(0x00000000, .nop), (0x00000001, .validate), (0x00000002, .setup), (0x00000003, .readrow .bgra),
    (0x00000013, .readrow .rgba), (0x00000004, .bfdec), (0x00000005, .lutrd)]

/-- The table is the graph of the encoder. -/
theorem mem_commandWords_iff {c : Word} {i : Instr} : (c, i) ∈ commandWords ↔ encode i = c := by
  constructor
  · have hrows : ∀ row ∈ commandWords, encode row.2 = row.1 := by decide
    exact hrows (c, i)
  · rintro rfl
    cases i with
    | readrow ord => cases ord <;> decide
    | nop | validate | setup | bfdec | lutrd => decide

/-- A word with a reserved operation code, a reserved bit set, or ORD outside READ_ROW is no command (30_encoding.md R66). -/
theorem decode_ne_ok_of_illegal {c : Word}
    (h : 6 ≤ (opField c).toNat ∨ rsvField c ≠ 0 ∨ (ordField c = 1 ∧ opField c ≠ 3)) (i : Instr) : decode c ≠ .ok i := by
  intro hc
  obtain ⟨hop, hrsv, hord⟩ := (decode_ok_iff_legal c).mp ⟨i, hc⟩
  rcases h with h | h | ⟨h1, h3⟩
  · omega
  · exact h hrsv
  · exact h3 (hord h1)

end Sys2Proof

namespace Sys2Proof.Machine

/-- The step at a write to CMD, at its offset 0, is the command word's (40_command_interface.md R80). -/
theorem step_of_cmd_write {s : State} {rest : List HostOp} {c : Word} (hp : s.pending = .regWrite 0 c :: rest) :
    step s = execute c { s with pending := rest } :=
  (step_of_cons hp).trans (busWrite_cmd c _)

theorem execute_of_illegal {c : Word} (h : ∀ i, decode c ≠ .ok i) (s : State) :
    execute c s = .next (s.setErr .illegalCmd) := by
  obtain ⟨t, ht⟩ := execute_next c s
  rcases execute_cases ht with ⟨i, hi, -⟩ | ⟨-, rfl⟩
  · exact absurd hi (h i)
  · exact ht

/-- An error code shows in STATUS.ERR alone (60_exceptions.md R230). -/
theorem setErr_frame (s : State) (e : CmdError) :
    s.setErr e = { s with status := (s.setErr e).status } ∧ StatusKept 0xF00 s (s.setErr e) ∧ MemoriesKept s (s.setErr e) :=
  ⟨rfl, setErr_kept s e, fun _ => rfl, fun _ => rfl⟩

theorem literalWord_natCast (n : Nat) : literalWord n = BitVec.ofNat 32 n := BitVec.ofInt_natCast 32 n

/-- A word written as its unsigned number is that word. -/
theorem literalWord_toNat (v : Word) : literalWord v.toNat = v := by
  rw [literalWord_natCast, BitVec.ofNat_toNat, BitVec.setWidth_eq]

/-- A number in the signed range is what its word reads back as. -/
theorem toInt_literalWord {r : Int} (h : signedLiteral r = true) : (literalWord r).toInt = r := by
  obtain ⟨hlo, hhi⟩ := of_decide_eq_true h
  exact BitVec.toInt_ofInt_eq_self (by omega) hlo hhi

/-- `(i << 8) | w` keeps the two operands apart (30_encoding.md R64). -/
theorem toNat_lutrdOperand {w i : Nat} (hw : w < 2 ^ 4) (hi : i < 2 ^ 8) :
    ((literalWord i <<< 8) ||| literalWord w).toNat = i * 256 + w := by
  have hor : i <<< 8 ||| w = i * 256 + w := by
    rw [← Nat.shiftLeft_add_eq_or_of_lt (by omega), Nat.shiftLeft_eq]
  have hi32 : i % 2 ^ 32 = i := Nat.mod_eq_of_lt (by omega)
  have hw32 : w % 2 ^ 32 = w := Nat.mod_eq_of_lt (by omega)
  have hs32 : i <<< 8 % 2 ^ 32 = i <<< 8 := Nat.mod_eq_of_lt (by rw [Nat.shiftLeft_eq]; omega)
  rw [literalWord_natCast, literalWord_natCast, BitVec.toNat_or, BitVec.toNat_shiftLeft, BitVec.toNat_ofNat, BitVec.toNat_ofNat,
    hi32, hw32, hs32, hor]

end Sys2Proof.Machine
end

section
/-!
PROOFS. The command words (30_encoding.md R60 to R62, R66) and the host's program lines (30_encoding.md R64, R67, R68).
-/

namespace Sys2Proof.Machine

/-- Settles O1: the decoder accepts the encodings alone, and every instruction is well formed. -/
theorem decodeInvertsEncode : Obligations.DecodeInvertsEncode := by
  intro c i
  simp only [decode_eq_ok_iff, i.wellFormed_eq_true, true_and]

/-- Settles O2: a word decodes exactly when it is an encoding, and the table is the graph of the encoder. -/
theorem legalWordsAreTheSevenOfTheTable : Obligations.LegalWordsAreTheSevenOfTheTable :=
  fun _ _ => decode_eq_ok_iff.trans mem_commandWords_iff.symm

/-- Settles O3: each of the words is its command's encoding. -/
theorem tableWordsDecode : Obligations.TableWordsDecode :=
  ⟨decode_eq_ok_iff.mpr rfl, decode_eq_ok_iff.mpr rfl, decode_eq_ok_iff.mpr rfl, decode_eq_ok_iff.mpr rfl⟩

/-- Settles O4: the step raises the error before any other check, and an error shows in STATUS.ERR alone. -/
theorem illegalWordSetsOnlyErr : Obligations.IllegalWordSetsOnlyErr := by
  intro s rest c hp hillegal
  obtain ⟨hframe, hstatus, hmem⟩ := setErr_frame { s with pending := rest } .illegalCmd
  refine ⟨_, ?_, State.setErr_err _ _, hframe, hstatus, hmem⟩
  rw [step_of_cmd_write hp]
  exact execute_of_illegal (decode_ne_ok_of_illegal hillegal) _

/-- Settles O52: the offset of CMD is 0, each command line writes its command's word, and `wr` writes the word its number names. -/
theorem plainLinesExpandToTheirWords : Obligations.PlainLinesExpandToTheirWords := by
  refine ⟨fun r v => ⟨?_, rfl⟩, rfl, rfl, rfl, rfl, rfl, rfl, rfl⟩
  rw [AsmLine.expand, literalWord_toNat, wrOp]

/-- Settles O53: the operands of `lutrd` fit their fields, and a row in the signed range reads back as itself. -/
theorem pseudoInstructionsLoadTheirOperands : Obligations.PseudoInstructionsLoadTheirOperands := by
  refine ⟨fun w i hfit => ⟨_, rfl, ?_⟩, fun ord r hfit => ⟨_, rfl, toInt_literalWord hfit⟩⟩
  simp only [AsmLine.wellFormed, Bool.and_eq_true, decide_eq_true_eq] at hfit
  obtain ⟨⟨hw0, hw⟩, hi0, hi⟩ := hfit
  lift w to Nat using hw0
  lift i to Nat using hi0
  rw [toNat_lutrdOperand (by exact_mod_cast hw) (by exact_mod_cast hi)]
  push_cast
  rfl

end Sys2Proof.Machine
end

section
/-!
SUPPORT. What a byte stored in a memory and a byte handed back to the host change, and what they leave (40_command_interface.md
R85; 10_state.md R12).
-/

namespace Sys2Proof.Machine

theorem State.sourceByte_put (s : State) (i : Nat) (b : Byte) (k : Nat) :
    ({ s with source := Memory.put s.source i b } : State).sourceByte k = if k = i then b else s.sourceByte k := by
  simp only [State.sourceByte, Memory.byteAt_put]
  split <;> rfl

theorem State.outputByte_put (s : State) (j : Nat) (b : Byte) (k : Nat) :
    ({ s with output := Memory.put s.output j b } : State).outputByte k = if k = j then b else s.outputByte k := by
  simp only [State.outputByte, Memory.byteAt_put]
  split <;> rfl

/-- A read transaction hands back the byte as a number and touches neither registers nor memories (10_state.md R12). -/
theorem returning_byte_frame (s : State) (b : Byte) :
    (s.returning (b.setWidth 32)).readData.toNat = b.toNat ∧ SameRegisters s (s.returning (b.setWidth 32))
      ∧ MemoriesKept s (s.returning (b.setWidth 32)) :=
  ⟨BitVec.toNat_setWidth_of_le (by decide), sameRegisters_update, fun _ => rfl, fun _ => rfl⟩

end Sys2Proof.Machine
end

section
/-!
PROOFS. The command interface: a legal command word, NOP, and the host's loads and stores of its two memories
(40_command_interface.md R80, R83, R85; 20_memory.md R51, R54).
-/

namespace Sys2Proof.Machine

/-- Settles O12: a store is a `Memory.put` to one memory, a load changes `readData` alone, and no register sees either. -/
theorem hostMemoryAccesses : Obligations.HostMemoryAccesses := by
  intro s rest i b
  refine ⟨fun hp => ?sourceStore, fun hp => ?outputStore, fun hp => ?sourceLoad, fun hp => ?outputLoad⟩
  case sourceStore =>
    exact ⟨_, step_of_cons hp, sameRegisters_update, State.sourceByte_put { s with pending := rest } _ b, fun _ => rfl⟩
  case outputStore =>
    exact ⟨_, step_of_cons hp, sameRegisters_update, State.outputByte_put { s with pending := rest } _ b, fun _ => rfl⟩
  case sourceLoad => exact ⟨_, step_of_cons hp, returning_byte_frame { s with pending := rest } (s.sourceByte i.toNat)⟩
  case outputLoad => exact ⟨_, step_of_cons hp, returning_byte_frame { s with pending := rest } (s.outputByte i.toNat)⟩

/-- Settles O5: the step at CMD executes the word, and a word that decodes is the encoding of its command. -/
theorem stepRunsTheDecodedCommand : Obligations.StepRunsTheDecodedCommand := by
  intro s rest c i hp hc
  rw [step_of_cmd_write hp, encode_of_decode hc, execute_encode]

/-- Settles O18: NOP only completes, and completing writes STATUS.ERR alone. -/
theorem nopOnlyClearsErr : Obligations.NopOnlyClearsErr := by
  intro s
  have hnop : exec .nop s = .next (s.setErr .none) := rfl
  exact ⟨_, hnop, State.setErr_err _ _, State.setErr_valid _ _, State.setErr_setupDone _ _, State.setErr_reason _ _,
    setErr_frame s .none⟩

end Sys2Proof.Machine
end

section
/-!
SUPPORT. A mask by its lowest set bit, the width of a bindable mask, and the fields of BFDEC's RESULT1
(41_bitfield_decoder.md R100 to R103; 10_state.md R27).
-/

namespace Sys2Proof.Machine

/-! ## The decoded mask -/

theorem isLowestBit_ctz32 {m : Word} (h : m ≠ 0) : IsLowestBit m (ctz32 m) := (ctz32_spec h).2

/-- Only zeros stand below the lowest set bit, so shifting them out and back in gives the mask. -/
theorem IsLowestBit.shiftLeft_ushiftRight {m : Word} {lo : Nat} (h : IsLowestBit m lo) : (m >>> lo) <<< lo = m := by
  obtain ⟨-, hbelow⟩ := h
  refine BitVec.eq_of_getLsbD_eq fun i hi => ?_
  rw [BitVec.getLsbD_shiftLeft, BitVec.getLsbD_ushiftRight]
  by_cases hlo : i < lo
  · simp [hlo, hbelow i hlo]
  · simp [hlo, hi, Nat.add_sub_of_le (not_lt.mp hlo)]

/-- The shift undoes the decoding of every mask (41_bitfield_decoder.md R101). -/
theorem decodeMask_shiftLeft (m : Word) : (decodeMask m).2 <<< (decodeMask m).1 = m := by
  by_cases hm : m = 0
  · subst hm; rfl
  · rw [decodeMask_of_ne hm]; exact (isLowestBit_ctz32 hm).shiftLeft_ushiftRight

/-! ## Bindable masks -/

theorem bindable_iff_isTableMask (r : Word) : bindable r = true ↔ IsTableMask r := by
  constructor
  · intro h
    obtain ⟨w, h1, h8, hr, -⟩ := bindable_width h
    exact ⟨w, h1, h8, hr⟩
  · rintro ⟨w, h1, h8, hr⟩
    exact bindable_of_width h1 h8 hr

/-- The set bit count and the bit length of 2^w - 1, for a w in 1..8 (41_bitfield_decoder.md R103). -/
theorem widths_of_tableMask {r : Word} {w : Nat} (h1 : 1 ≤ w) (h8 : w ≤ 8) (hr : r.toNat = 2 ^ w - 1) :
    popcount32 r = w ∧ bitlen32 r = w := by
  obtain ⟨w', -, -, hr', hpop, hlen⟩ := bindable_width (bindable_of_width h1 h8 hr)
  have hpow : 2 ^ w' = 2 ^ w := by have := Nat.two_pow_pos w; have := Nat.two_pow_pos w'; omega
  obtain rfl : w' = w := Nat.pow_right_injective le_rfl hpow
  exact ⟨hpop, hlen⟩

/-! ## The fields of RESULT1, and the state BFDEC leaves -/

section
variable {sh : Nat} (r : Word) (hs : sh < 32)
include hs

theorem bfdecResult1_shift : ((bfdecResult1 sh r).extractLsb' 0 5).toNat = sh := by
  refine toNat_field (fun i hi => ?_) hs
  rw [getLsbD_bfdecResult1 _ _ hs]
  simp [hi]

theorem bfdecResult1_nbits : ((bfdecResult1 sh r).extractLsb' 8 6).toNat = popcount32 r := by
  refine toNat_field (fun i hi => ?_) (lt_of_le_of_lt (popcount32_le r) (by decide))
  rw [getLsbD_bfdecResult1 _ _ hs, if_neg (by omega), if_pos (by omega), Nat.add_sub_cancel_left]

theorem bfdecResult1_len : ((bfdecResult1 sh r).extractLsb' 16 6).toNat = bitlen32 r := by
  refine toNat_field (fun i hi => ?_) (lt_of_le_of_lt (bitlen32_le r) (by decide))
  rw [getLsbD_bfdecResult1 _ _ hs, if_neg (by omega), if_neg (by omega), if_pos (by omega), Nat.add_sub_cancel_left]

theorem bfdecResult1_tbl : (bfdecResult1 sh r).extractLsb' 24 1 = 1 ↔ bindable r = true := by
  have htbl : (bfdecResult1 sh r).extractLsb' 24 1 = BitVec.ofBool (bindable r) := by
    refine BitVec.eq_of_getLsbD_eq fun i hi => ?_
    obtain rfl : i = 0 := by omega
    rw [BitVec.getLsbD_extractLsb', getLsbD_bfdecResult1 _ _ hs]
    simp
  rw [htbl]
  cases bindable r <;> decide

end

/-- BFDEC writes the two results and completes (41_bitfield_decoder.md R102). -/
theorem exec_bfdec (s : State) : exec .bfdec s = .next ({ s with
    result0 := (decodeMask s.arg).2, result1 := bfdecResult1 (decodeMask s.arg).1 (decodeMask s.arg).2 }.setErr .none) := rfl

end Sys2Proof.Machine
end

section
/-!
PROOFS. The bitfield decoder and BFDEC (41_bitfield_decoder.md R100 to R103).
-/

namespace Sys2Proof.Machine

/-- Settles O19: the lowest set bit is the one `ctz32` finds. -/
theorem maskDecoding : Obligations.MaskDecoding := by
  refine ⟨decodeMask_zero, fun m hm => ⟨ctz32 m, ?_, isLowestBit_ctz32 hm, decodeMask_of_ne hm⟩⟩
  exact (isLowestBit_ctz32 hm).lt

/-- Settles O20: the lowest set bit becomes bit 0, and only zeros are shifted out. -/
theorem maskDecodingKeepsTheMask : Obligations.MaskDecodingKeepsTheMask :=
  ⟨by decide, fun m => ⟨decodeMask_bit_zero, decodeMask_shiftLeft m⟩⟩

/-- Settles O21: each of the eight listed masks is 2^w - 1 for a w in 1..8, and that w is both its widths. -/
theorem bindableMasks : Obligations.BindableMasks :=
  fun r => ⟨bindable_iff_isTableMask r, List.contains_iff_mem, fun _ => widths_of_tableMask⟩

/-- Settles O22: the mask is decoded at its lowest set bit, and each field of RESULT1 holds its measure of the reduced mask. -/
theorem bfdecReportsTheDecodedMask : Obligations.BfdecReportsTheDecodedMask := by
  intro s
  refine ⟨_, exec_bfdec s, State.setErr_err _ _, fun h0 => ?noMask, fun lo hi hlo hhi => ?mask, rfl, setErr_kept _ .none,
    fun _ => rfl, fun _ => rfl⟩
  case noMask =>
    have hzero : bfdecResult1 0 0 = 0 := by decide
    rw [h0]
    exact ⟨rfl, hzero⟩
  case mask =>
    obtain ⟨-, hspan⟩ := bitlen32_shift hlo hhi
    rw [decodeMask_of_lowest hlo]
    refine ⟨rfl, bfdecResult1_shift _ hlo.lt, ?_, ?_, ?_, bfdecResult1_reserved _ _ hlo.lt⟩
    · exact (bfdecResult1_nbits _ hlo.lt).trans (popcount32_shift hlo)
    · exact (bfdecResult1_len _ hlo.lt).trans hspan
    · exact (bfdecResult1_tbl _ hlo.lt).trans (bindable_iff_isTableMask _)

end Sys2Proof.Machine
end

section
/-!
SUPPORT. The entries of a scale table, and what LUTRD does with a legal and with any other operand (42_scale_lut.md R120, R122,
R123; 30_encoding.md R64).
-/

namespace Sys2Proof.Machine

/-! ## The entries of a table -/

section
variable {w : Nat} (h1 : 1 ≤ w) (h8 : w ≤ 8)
include h1 h8

theorem lutDefined_iff (i : Nat) : lutDefined w i = true ↔ i < 2 ^ w := by
  simp [lutDefined, h1, h8]

theorem lut_zero : lut w 0 = 0 :=
  BitVec.eq_of_toNat_eq <| calc
    (lut w 0).toNat = 0 * 255 / (2 ^ w - 1) := toNat_lut h1 h8 (Nat.two_pow_pos w)
    _ = 0 := by rw [Nat.zero_mul, Nat.zero_div]

theorem lut_last : lut w (2 ^ w - 1) = 255 :=
  have hpos : 0 < 2 ^ w - 1 := Nat.sub_pos_of_lt (Nat.one_lt_two_pow (Nat.one_le_iff_ne_zero.mp h1))
  BitVec.eq_of_toNat_eq <| calc
    (lut w (2 ^ w - 1)).toNat = (2 ^ w - 1) * 255 / (2 ^ w - 1) := toNat_lut h1 h8 (Nat.sub_lt (Nat.two_pow_pos w) one_pos)
    _ = 255 := Nat.mul_div_cancel_left 255 hpos

theorem toNat_lut_le_of_le {i j : Nat} (hij : i ≤ j) (hj : j < 2 ^ w) : (lut w i).toNat ≤ (lut w j).toNat := by
  rw [toNat_lut h1 h8 (hij.trans_lt hj), toNat_lut h1 h8 hj]
  exact Nat.div_le_div_right (Nat.mul_le_mul_right 255 hij)

/-- Where 2^w - 1 divides 255, nothing is rounded. -/
theorem toNat_lut_mul_of_dvd (hdvd : 2 ^ w - 1 ∣ 255) {i : Nat} (hi : i < 2 ^ w) :
    (lut w i).toNat * (2 ^ w - 1) = i * 255 := by
  rw [toNat_lut h1 h8 hi]
  exact Nat.div_mul_cancel (hdvd.mul_left i)

end

/-! ## LUTRD -/

/-- The operands of I * 256 + W are W and I (30_encoding.md R64). -/
theorem lutOperands_of_toNat {a : Word} {w i : Nat} (hw : w < 2 ^ 4) (hi : i < 2 ^ 8) (ha : a.toNat = i * 256 + w) :
    lutWidthOperand a = w ∧ lutIndexOperand a = i := by
  have hwidth : lutWidthOperand a = a.toNat % 16 := by simp [lutWidthOperand, getField]
  have hindex : lutIndexOperand a = a.toNat / 256 % 256 := by
    simp [lutIndexOperand, getField, Nat.shiftRight_eq_div_pow]
  omega

theorem exec_lutrd_of_legal {s : State} (h : lutOperandLegal s.arg = true) :
    exec .lutrd s = .next ({ s with
      result0 := (lut (lutWidthOperand s.arg) (lutIndexOperand s.arg)).setWidth 32, result1 := 0 }.setErr .none) :=
  if_pos h

theorem exec_lutrd_of_not_legal {s : State} (h : ¬ lutOperandLegal s.arg = true) :
    exec .lutrd s = .next (s.setErr .badArg) := if_neg h

end Sys2Proof.Machine
end

section
/-!
PROOFS. The scale tables and LUTRD (42_scale_lut.md R120, R122, R123).
-/

namespace Sys2Proof.Machine

/-- Settles O23: the floor of a fraction with divisor 2^w - 1 grows with the index, and has no remainder where the divisor is
1, 3, 15 or 255. -/
theorem scaleTableProperties : Obligations.ScaleTableProperties := by
  intro w h1 h8
  refine ⟨lutDefined_iff h1 h8, fun i => toNat_lut h1 h8, lut_zero h1 h8, lut_last h1 h8,
    fun i => toNat_lut_le_of_le h1 h8 (Nat.le_add_right i 1), fun hw i => toNat_lut_mul_of_dvd h1 h8 ?divisor⟩
  case divisor =>
    have hdvd : ∀ v ∈ [1, 2, 4, 8], 2 ^ v - 1 ∣ 255 := by decide
    exact hdvd w hw

/-- Settles O24: the operand is legal, its two fields are W and I, and RESULT0 takes the entry they name. -/
theorem lutrdReadsTheTable : Obligations.LutrdReadsTheTable := by
  intro s w i h1 h8 hi harg
  have hlegal : lutOperandLegal s.arg = true := (lutOperandLegal_iff_toNat _).mpr ⟨w, i, h1, h8, hi, harg⟩
  have hi8 : i < 2 ^ 8 := hi.trans_le (Nat.pow_le_pow_right two_pos h8)
  obtain ⟨hwidth, hindex⟩ := lutOperands_of_toNat (lt_of_le_of_lt h8 (by decide)) hi8 harg
  refine ⟨_, exec_lutrd_of_legal hlegal, State.setErr_err _ _, ?entry, rfl, rfl, setErr_kept _ .none, fun _ => rfl, fun _ => rfl⟩
  case entry =>
    rw [State.setErr_result0, hwidth, hindex, BitVec.toNat_setWidth_of_le (by decide)]
    exact toNat_lut h1 h8 hi

/-- Settles O25: the legal operands are the numbers I * 256 + W, and a refusal shows in STATUS.ERR alone. -/
theorem lutrdRefusesEveryOtherOperand : Obligations.LutrdRefusesEveryOtherOperand := by
  intro s hother
  have hillegal : ¬ lutOperandLegal s.arg = true := mt (lutOperandLegal_iff_toNat _).mp hother
  exact ⟨_, exec_lutrd_of_not_legal hillegal, State.setErr_err _ _, setErr_frame s .badArg⟩

end Sys2Proof.Machine
end

section
/-!
SUPPORT. The width of a mask, and the state VALIDATE leaves (43_format_validator.md R142, R143, R146).
-/

namespace Sys2Proof.Machine

/-! ## The width of a mask -/

/-- A mask without a gap has the set bits from `lo` to `hi` and no other. -/
theorem setBits_of_contiguous {m : Word} {lo hi : Nat} (hlo : IsLowestBit m lo) (hhi : IsHighestBit m hi)
    (hrun : ∀ i, lo ≤ i → i ≤ hi → m.getLsbD i = true) : setBits m = hi + 1 - lo := by
  have hset : ((Finset.range 32).filter fun i => m.getLsbD i = true) = Finset.Icc lo hi := by
    ext i
    rw [Finset.mem_filter, Finset.mem_range, Finset.mem_Icc]
    constructor
    · rintro ⟨-, hbit⟩
      exact ⟨not_lt.mp fun hlt => by simp [hlo.2 i hlt] at hbit,
        not_lt.mp fun hlt => by simp [hhi.2 i hlt] at hbit⟩
    · rintro ⟨hge, hle⟩
      have hbit := hrun i hge hle
      exact ⟨BitVec.lt_of_getLsbD hbit, hbit⟩
  rw [setBits, hset, Nat.card_Icc]

/-- `bitlen32_le_iff` from the other side: a word exceeds a bit length from the next power of two on. -/
theorem lt_bitlen32_iff (m : Word) (n : Nat) : n < bitlen32 m ↔ 2 ^ n ≤ m.toNat := by
  rw [← not_le, bitlen32_le_iff, not_lt]

/-! ## VALIDATE -/

/-- VALIDATE writes the validator's verdict to STATUS and completes (43_format_validator.md R146). -/
theorem exec_validate (s : State) : exec .validate s = .next
    ((((s.setReason (validateFormat s)).setValid (validateFormat s == .ok)).setSetupDone false).setErr .none) := rfl

/-- The last check, mask by mask. -/
theorem any_maskTooWide_iff (r g b a : Word) : [r, g, b, a].any maskTooWide = true ↔
    8 < bitlen32 (decodeMask r).2 ∨ 8 < bitlen32 (decodeMask g).2 ∨ 8 < bitlen32 (decodeMask b).2
      ∨ 8 < bitlen32 (decodeMask a).2 := by
  simp only [List.any_cons, List.any_nil, Bool.or_false, Bool.or_eq_true, maskTooWide, decide_eq_true_eq]

end Sys2Proof.Machine
end

section
/-!
PROOFS. The format validator and VALIDATE (43_format_validator.md R142 to R146).
-/

namespace Sys2Proof.Machine

/-- Settles O26: the shift takes the lowest set bit to bit 0, and a bit length above 8 is a value of 2^8 or more. -/
theorem maskWidthIsTheSpan : Obligations.MaskWidthIsTheSpan := by
  intro m
  refine ⟨fun lo hi hlo hhi => ?span, lt_bitlen32_iff _ 8⟩
  case span =>
    obtain ⟨hle, hspan⟩ := bitlen32_shift hlo hhi
    rw [decodeMask_of_lowest hlo, hspan]
    refine ⟨rfl, fun hrun => ?_⟩
    rw [setBits_of_contiguous hlo hhi hrun, Nat.sub_add_comm hle]

/-- Settles O27: the model's checks are those of the table, one by one, and no other reason than OK has the code 0. -/
theorem validateReportsTheFirstFailure : Obligations.ValidateReportsTheFirstFailure := by
  intro s
  refine ⟨_, exec_validate s, ?reason, ?valid, ?setupDone, State.setErr_err _ _, rfl, validate_kept s _ _, fun _ => rfl,
    fun _ => rfl⟩
  case reason =>
    rw [State.setErr_reason, State.setSetupDone_reason, State.setValid_reason, State.setReason_reason, validateFormat]
    simp only [State.imageWidth, State.imageHeight, State.depthBits, State.compressionCode, sext32, natAbs_height_iff,
      depth_unsupported_iff, compression_unsupported_iff, bitFields_iff, any_maskTooWide_iff, apply_ite Reason.code]
    rfl
  case valid =>
    rw [State.setErr_valid, State.setSetupDone_valid, State.setValid_valid, beq_iff_eq,
      State.setErr_reason, State.setSetupDone_reason, State.setValid_reason, State.setReason_reason]
    exact (Reason.code_eq_zero _).symm
  case setupDone => rw [State.setErr_setupDone, State.setSetupDone_setupDone]

end Sys2Proof.Machine
end

section
/-!
SUPPORT. A mask as its reduced mask shifted back, the masks in force case by case, and the state SETUP leaves
(41_bitfield_decoder.md R101; 44_channel_resolver.md R160 to R166).
-/

namespace Sys2Proof.Machine

/-! ## A mask that is a run of ones -/

/-- Shifted back, a reduced mask ends at bit 31 or below, so no set bit is lost (41_bitfield_decoder.md R101). -/
theorem toNat_eq_decodeMask_mul (m : Word) : m.toNat = (decodeMask m).2.toNat * 2 ^ (decodeMask m).1 := by
  have hfits : (decodeMask m).2.toNat * 2 ^ (decodeMask m).1 < 2 ^ 32 := calc
    (decodeMask m).2.toNat * 2 ^ (decodeMask m).1
      < 2 ^ bitlen32 (decodeMask m).2 * 2 ^ (decodeMask m).1 :=
        Nat.mul_lt_mul_of_pos_right ((bitlen32_le_iff _ _).mp le_rfl) (Nat.two_pow_pos _)
    _ = 2 ^ ((decodeMask m).1 + bitlen32 (decodeMask m).2) := by rw [Nat.pow_add, Nat.mul_comm]
    _ ≤ 2 ^ 32 := Nat.pow_le_pow_right two_pos (decodeMask_span m)
  calc
    m.toNat = ((decodeMask m).2 <<< (decodeMask m).1).toNat := by rw [decodeMask_shiftLeft]
    _ = (decodeMask m).2.toNat * 2 ^ (decodeMask m).1 := by
      rw [BitVec.toNat_shiftLeft, Nat.shiftLeft_eq, Nat.mod_eq_of_lt hfits]

/-- A table can be bound to the channels whose mask is one run of 1 to 8 ones, and to no other. -/
theorem bindable_decodeMask_iff (m : Word) : bindable (decodeMask m).2 = true ↔
    ∃ w sh, 1 ≤ w ∧ w ≤ 8 ∧ m.toNat = (2 ^ w - 1) * 2 ^ sh := by
  rw [bindable_iff_isTableMask]
  constructor
  · rintro ⟨w, h1, h8, hr⟩
    exact ⟨w, (decodeMask m).1, h1, h8, by rw [← hr, ← toNat_eq_decodeMask_mul]⟩
  · rintro ⟨w, sh, h1, h8, hm⟩
    obtain ⟨hlo, hr⟩ := lowest_of_run h1 hm
    rw [decodeMask_of_lowest hlo]
    exact ⟨w, h1, h8, hr⟩

/-- The colour of a channel without a bound table (46_pixel_packer.md R201). -/
theorem scale_of_not_bound (p : Word) {ch : Word} (h : ¬ chBound ch = true) : scale p ch = 0 := if_neg h

/-! ## The masks in force -/

section
variable {s : State}

theorem masksInForce_of_bitFields (hc : s.compression = 3) : masksInForce s = ⟨s.maskR, s.maskG, s.maskB, s.maskA⟩ := by
  rw [masksInForce_eq, if_pos hc]

theorem masksInForce_of_depth_16 (hc : s.compression ≠ 3) (hd : s.depth = 16) :
    masksInForce s = ⟨0x00007C00, 0x000003E0, 0x0000001F, 0x00000000⟩ := by
  rw [masksInForce_eq, if_neg hc, if_pos hd]

theorem masksInForce_of_other_depth (hc : s.compression ≠ 3) (hd : s.depth ≠ 16) :
    masksInForce s = ⟨0x00FF0000, 0x0000FF00, 0x000000FF, 0x00000000⟩ := by
  rw [masksInForce_eq, if_neg hc, if_neg hd]

/-! ## SETUP -/

theorem exec_setup_of_valid (h : s.valid = true) : exec .setup s = .next (({ s with
    chR := pack (resolve (masksInForce s).red), chG := pack (resolve (masksInForce s).green),
    chB := pack (resolve (masksInForce s).blue), chA := pack (resolve (masksInForce s).alpha) }.setSetupDone true).setErr .none) :=
  if_pos h

end

theorem pack_resolve_zero : pack (resolve 0) = 0 := (describesMask_pack_resolve 0).1 rfl

/-! The CH words of the default masks (44_channel_resolver.md R162). -/

theorem channelWords_depth_16 : pack (resolve 0x00007C00) = 0x01050A1F ∧ pack (resolve 0x000003E0) = 0x0105051F
    ∧ pack (resolve 0x0000001F) = 0x0105001F ∧ pack (resolve 0) = 0 :=
  ⟨by decide, by decide, by decide, pack_resolve_zero⟩

theorem channelWords_deeper : pack (resolve 0x00FF0000) = 0x010810FF ∧ pack (resolve 0x0000FF00) = 0x010808FF
    ∧ pack (resolve 0x000000FF) = 0x010800FF ∧ pack (resolve 0) = 0 :=
  ⟨by decide, by decide, by decide, pack_resolve_zero⟩

end Sys2Proof.Machine
end

section
/-!
PROOFS. The channel resolver, SETUP, and the colours of a session set up (44_channel_resolver.md R160 to R166;
46_pixel_packer.md R200, R201).
-/

namespace Sys2Proof.Machine

/-- Settles O29: each CH register SETUP writes describes its mask (`describesMask_pack_resolve`), whichever masks are in force. -/
theorem setupResolvesTheMasksInForce : Obligations.SetupResolvesTheMasksInForce := by
  intro s hvalid
  refine ⟨_, exec_setup_of_valid hvalid, ?setupDone, State.setErr_err _ _, fun hc => ?bitFields, fun hc hd => ?depth16,
    fun hc hd => ?otherDepth, rfl, setup_kept _, fun _ => rfl, fun _ => rfl⟩
  case setupDone => rw [State.setErr_setupDone, State.setSetupDone_setupDone]
  case bitFields =>
    rw [masksInForce_of_bitFields hc]
    exact ⟨describesMask_pack_resolve _, describesMask_pack_resolve _, describesMask_pack_resolve _,
      describesMask_pack_resolve _⟩
  case depth16 =>
    rw [masksInForce_of_depth_16 hc hd]
    exact ⟨describesMask_pack_resolve _, describesMask_pack_resolve _, describesMask_pack_resolve _, pack_resolve_zero⟩
  case otherDepth =>
    rw [masksInForce_of_other_depth hc hd]
    exact ⟨describesMask_pack_resolve _, describesMask_pack_resolve _, describesMask_pack_resolve _, pack_resolve_zero⟩

/-- Settles O30: Uncompressed has the default masks of the depth in force, and their CH words are computed once. -/
theorem setupOfTheDefaultMasks : Obligations.SetupOfTheDefaultMasks := by
  intro s hvalid hc
  have hnot : s.compression ≠ 3 := by rw [hc]; decide
  refine ⟨_, exec_setup_of_valid hvalid, fun h16 => ?depth16, fun hdeep => ?deeper⟩
  case depth16 =>
    rw [masksInForce_of_depth_16 hnot h16]
    exact channelWords_depth_16
  case deeper =>
    have h16 : s.depth ≠ 16 := by rcases hdeep with h | h <;> rw [h] <;> decide
    rw [masksInForce_of_other_depth hnot h16]
    exact channelWords_deeper

/-- Settles O38: a session's CH registers are its resolved masks; a run of ones is bound and scaled by `toNat_scale_of_run`, and
a mask that is no run has no bound table. -/
theorem colourIsTheExpandedField : Obligations.ColourIsTheExpandedField := by
  intro s p hs hdone cm hcm
  obtain ⟨-, -, hresolved⟩ := hs
  obtain ⟨hR, hG, hB, -⟩ := hresolved hdone
  have hch : cm.1 = pack (resolve cm.2) := by
    simp only [List.mem_cons, List.not_mem_nil, or_false] at hcm
    rcases hcm with rfl | rfl | rfl
    · exact hR
    · exact hG
    · exact hB
  rw [hch]
  refine ⟨fun w sh h1 h8 hm => toNat_scale_of_run p h1 h8 hm, fun hnorun => scale_of_not_bound p ?unbound⟩
  case unbound =>
    rw [chBound_pack]
    exact mt (bindable_decodeMask_iff cm.2).mp hnorun

end Sys2Proof.Machine
end

section
/-!
SUPPORT. A fetch outside the declared buffer, a pixel's offset over the registers, and the alpha byte by the absence of colour
(45_scanline_reader.md R182 to R188; 46_pixel_packer.md R203).
-/

namespace Sys2Proof.Machine

/-- The bounds check has no slack below: an offset before the buffer reads as 0 (45_scanline_reader.md R185). -/
theorem fetchPixel_of_neg (s : State) {off : Int} (h : off < 0) : fetchPixel s off = 0 := by
  have hout : ¬ inBounds off s.bpp s.bufferLength = true := by simp only [inBounds, decide_eq_true_eq]; omega
  exact if_neg hout

/-- Past the declared buffer the packed value is 0, in the slack of the bounds check as well: there each byte counts 0
(45_scanline_reader.md R188). -/
theorem fetchPixel_of_bufLen_le {s : State} (hbpp : s.bpp ∈ [2, 3, 4]) {off : Int} (h : (s.bufLen.toNat : Int) ≤ off) :
    fetchPixel s off = 0 := by
  obtain ⟨o, rfl⟩ := Int.eq_ofNat_of_zero_le (Int.natCast_nonneg _ |>.trans h)
  refine BitVec.eq_of_toNat_eq ((toNat_fetchPixel s o hbpp).trans (Finset.sum_eq_zero fun k _ => if_neg ?past))
  case past => omega

/-- The offset of a pixel over the registers, an exact integer (45_scanline_reader.md R182 to R184). -/
theorem pixelOffset_eq (s : State) (x : Nat) : pixelOffset s x =
    (if s.height.toInt < 0 then s.arg.toInt else s.height.toInt - 1 - s.arg.toInt) * s.stride.toNat
      + x * (s.depth.toNat / 8) := rfl

/-- The alpha byte is 0 exactly when no colour is there (46_pixel_packer.md R203). -/
theorem alphaOf_eq (r g b : Byte) : alphaOf r g b = if r = 0 ∧ g = 0 ∧ b = 0 then 0x00 else 0xFF := by
  have hcolour : (r ≠ 0 ∨ g ≠ 0 ∨ b ≠ 0) ↔ ¬ (r = 0 ∧ g = 0 ∧ b = 0) := by simp only [not_and_or, ne_eq]
  simp only [alphaOf, hcolour, ite_not]

end Sys2Proof.Machine
end

section
/-!
PROOFS. The scanline reader: READ_ROW completes within its frame, each pixel's bytes, and the packed value of a pixel
(45_scanline_reader.md R180 to R188).
-/

namespace Sys2Proof.Machine

/-- Settles O33: an offset below the buffer fails the bounds check, and from 0 on `toNat_fetchPixel` gives the sum of the bytes,
all 0 past the buffer. -/
theorem fetchedPixelIsLittleEndian : Obligations.FetchedPixelIsLittleEndian := by
  intro s off bpp hmem hbpp
  subst hbpp
  refine ⟨fetchPixel_of_neg s, fetchPixel_of_bufLen_le hmem, fun o ho => ?_⟩
  rw [ho]
  exact toNat_fetchPixel s o hmem

/-- Settles O31: with SETUP_DONE = 1 READ_ROW has no check left that could fail, and it writes the output bytes of its row and
STATUS.ERR alone. -/
theorem readRowNeverFailsAfterSetup : Obligations.ReadRowNeverFailsAfterSetup := by
  intro s ord hdone
  exact ⟨_, exec_readrow ord hdone, State.setErr_err _ _, rfl, setErr_kept _ .none, fun _ => rfl,
    fun j => (outputByte_readrow s ord j).2⟩

/-- Settles O32: the row's bytes are its pixels', and a pixel's bytes are its scaled channels in the order ORD selects, and their
alpha. -/
theorem readRowDecodesEachPixel : Obligations.ReadRowDecodesEachPixel := by
  intro s ord hdone
  obtain ⟨t, ht⟩ := exec_next (.readrow ord) s
  refine ⟨t, ht, fun x hx => ?_⟩
  have hbyte : ∀ k < 4, t.outputByte (4 * x + k) = (pixelBytes s (fetchPixel s (pixelOffset s x)) ord).byte k := fun k hk =>
    outputByte_of_readrow_pixel ht hdone hx hk
  have hfirst : t.outputByte (4 * x) = (pixelBytes s (fetchPixel s (pixelOffset s x)) ord).byte 0 := hbyte 0 (by omega)
  rw [hfirst, hbyte 1 (by omega), hbyte 2 (by omega), hbyte 3 (by omega)]
  simp only [← pixelOffset_eq]
  cases ord <;> exact ⟨rfl, rfl, rfl, alphaOf_eq _ _ _⟩

end Sys2Proof.Machine
end

section
/-!
SUPPORT. The raw value of a bound channel, the zero entry of a scale table, and a pixel's bytes in the row READ_ROW writes
(42_scale_lut.md R122; 46_pixel_packer.md R200 to R207).
-/

namespace Sys2Proof.Machine

/-! ## Where a scaled channel is 0 -/

/-- Only the index 0 has the entry 0: the divisor 2^w - 1 is at most 255, so index 1 already gives 1 or more
(42_scale_lut.md R122). -/
theorem lut_eq_zero_iff {w i : Nat} (h1 : 1 ≤ w) (h8 : w ≤ 8) (hi : i < 2 ^ w) : lut w i = 0 ↔ i = 0 := by
  have hpow : 2 ^ w ≤ 2 ^ 8 := Nat.pow_le_pow_right two_pos h8
  have hpos : 0 < 2 ^ w - 1 := Nat.sub_pos_of_lt (Nat.one_lt_two_pow (Nat.one_le_iff_ne_zero.mp h1))
  calc
    lut w i = 0 ↔ i * 255 / (2 ^ w - 1) = 0 := by rw [← BitVec.toNat_inj, toNat_lut h1 h8 hi]; rfl
    _ ↔ i * 255 < 2 ^ w - 1 := Nat.div_eq_zero_iff_lt hpos
    _ ↔ i = 0 := by omega

/-- The raw value of a channel whose mask is a run of `w` ones is an index of the table for `w` bits (46_pixel_packer.md R201). -/
theorem toNat_extract_lt (p : Word) {ch : Word} {w : Nat} (hmask : (chMask ch).toNat = 2 ^ w - 1) (h8 : w ≤ 8) :
    (extract p ch).toNat < 2 ^ w := by
  rw [toNat_extract p hmask h8]
  exact Nat.mod_lt _ (Nat.two_pow_pos w)

theorem scale_of_bound (p : Word) {ch : Word} (h : chBound ch = true) :
    scale p ch = lut (chWidth ch).toNat (extract p ch).toNat := if_pos h

/-! ## The alpha byte and the order of the lanes -/

theorem alphaOf_swap (r g b : Byte) : alphaOf r g b = alphaOf b g r := by
  have hcolour : (r = 0 ∧ g = 0 ∧ b = 0) ↔ (b = 0 ∧ g = 0 ∧ r = 0) := by tauto
  simp only [alphaOf_eq, hcolour]

/-- Lane 3 is the alpha of the three lanes before it, in either order. -/
theorem rowPixel_o3 (s : State) (ord : Order) (x : Nat) :
    (rowPixel s ord x).o3 = alphaOf (rowPixel s ord x).o0 (rowPixel s ord x).o1 (rowPixel s ord x).o2 := by
  cases ord with
  | rgba => rfl
  | bgra => exact alphaOf_swap _ _ _

/-- Against ORD = 1, ORD = 0 has lanes 0 and 2 in each other's place (46_pixel_packer.md R204). -/
theorem rowPixel_bgra (s : State) (x : Nat) : rowPixel s .bgra x =
    ⟨(rowPixel s .rgba x).o2, (rowPixel s .rgba x).o1, (rowPixel s .rgba x).o0, (rowPixel s .rgba x).o3⟩ := rfl

/-- The four output bytes of a pixel of the row are its four lanes (46_pixel_packer.md R205). -/
theorem outputBytes_of_readrow_pixel {s t : State} {ord : Order} (h : exec (.readrow ord) s = .next t)
    (hdone : s.setupDone = true) {x : Nat} (hx : (x : Int) < s.width.toInt) :
    t.outputByte (4 * x) = (rowPixel s ord x).o0 ∧ t.outputByte (4 * x + 1) = (rowPixel s ord x).o1
      ∧ t.outputByte (4 * x + 2) = (rowPixel s ord x).o2 ∧ t.outputByte (4 * x + 3) = (rowPixel s ord x).o3 := by
  have hbyte : ∀ k < 4, t.outputByte (4 * x + k) = (rowPixel s ord x).byte k := fun k hk =>
    outputByte_of_readrow_pixel h hdone hx hk
  exact ⟨hbyte 0 (by decide), hbyte 1 (by decide), hbyte 2 (by decide), hbyte 3 (by decide)⟩

/-- No pixel depends on CH_A or MASK_A (46_pixel_packer.md R203). -/
theorem rowPixel_update_alpha (s : State) (ord : Order) (ca ma : Word) :
    rowPixel { s with chA := ca, maskA := ma } ord = rowPixel s ord :=
  funext fun x => rowPixel_congr ord x rfl rfl rfl rfl rfl rfl rfl rfl fun _ _ _ _ _ => rfl

end Sys2Proof.Machine
end

section
/-!
PROOFS. The pixel packer: the alpha byte, the two output orders, and the scaled value of a channel
(46_pixel_packer.md R201 to R207).
-/

namespace Sys2Proof.Machine

/-- Settles O35: lane 3 of each pixel is the alpha of its other lanes, and the row READ_ROW writes is the same row whatever CH_A
and MASK_A hold. -/
theorem alphaIsColourPresence : Obligations.AlphaIsColourPresence := by
  intro s ord ca ma hdone
  have hrun := exec_readrow ord hdone
  refine ⟨_, hrun, fun x hx => ?alpha, ?independent⟩
  case alpha =>
    obtain ⟨h0, h1, h2, h3⟩ := outputBytes_of_readrow_pixel hrun hdone hx
    rw [h0, h1, h2, h3]
    exact rowPixel_o3 s ord x
  case independent =>
    have hdone' : ({ s with chA := ca, maskA := ma } : State).setupDone = true := hdone
    rw [exec_readrow ord hdone', rowPixel_update_alpha]
    rfl

/-- Settles O36: the two orders write the lanes of the same pixels, and `rowPixel_bgra` says where each lane stands. -/
theorem orderSwapsLanesZeroAndTwo : Obligations.OrderSwapsLanesZeroAndTwo := by
  intro s hdone
  have ht := exec_readrow .bgra hdone
  have hu := exec_readrow .rgba hdone
  refine ⟨_, _, ht, hu, fun x hx => ?_⟩
  obtain ⟨t0, t1, t2, t3⟩ := outputBytes_of_readrow_pixel ht hdone hx
  obtain ⟨u0, u1, u2, u3⟩ := outputBytes_of_readrow_pixel hu hdone hx
  rw [rowPixel_bgra] at t0 t1 t2 t3
  exact ⟨t0.trans u2.symm, t1.trans u1.symm, t2.trans u0.symm, t3.trans u3.symm⟩

/-- Settles O37: a bound channel's mask is a run of WIDTH ones, so its raw value is an index of its table, and only the index 0
has the entry 0. -/
theorem scaledChannelIsZeroExactlyWhenRawIs : Obligations.ScaledChannelIsZeroExactlyWhenRawIs := by
  intro p ch hlegal
  obtain ⟨-, -, -, hbound, -, -⟩ := hlegal
  refine ⟨fun hb => ?bound, fun hb => scale_of_not_bound p (ne_true_of_eq_false hb)⟩
  case bound =>
    obtain ⟨h1, h8, hmask⟩ := hbound hb
    have hidx : (extract p ch).toNat < 2 ^ (chWidth ch).toNat := toNat_extract_lt p hmask h8
    refine ⟨(lutDefined_iff h1 h8 _).mpr hidx, ?_⟩
    rw [scale_of_bound p hb, lut_eq_zero_iff h1 h8 hidx, ← BitVec.toNat_inj (y := 0)]
    rfl

end Sys2Proof.Machine
end

section
/-!
SUPPORT. The error each command ends in, and the command words as those that decode (60_exceptions.md R230, R231;
30_encoding.md R62).
-/

namespace Sys2Proof.Machine

/-- The error a legal command ends in, by its one check; `none` where it completes (60_exceptions.md R231). -/
def commandError (s : State) : Instr → CmdError
  | .setup => if s.valid then .none else .notValid
  | .readrow _ => if s.setupDone then .none else .notSetup
  | .lutrd => if lutOperandLegal s.arg then .none else .badArg
  | .nop | .validate | .bfdec => .none

/-- A command that fails writes its error code to the state before it; one that completes leaves ERR = 0 (60_exceptions.md R230). -/
theorem exec_commandError {i : Instr} {s t : State} (h : exec i s = .next t) :
    t = s.setErr (commandError s i) ∨ (commandError s i = .none ∧ t.err = 0) := by
  rcases exec_cases h with ⟨rfl, rfl⟩ | ⟨rfl, rfl⟩ | ⟨rfl, hv, rfl⟩ | ⟨rfl, hv, rfl⟩ | ⟨o, rfl, hd, rfl⟩ | ⟨o, rfl, hd, rfl⟩
    | ⟨rfl, rfl⟩ | ⟨rfl, hl, rfl⟩ | ⟨rfl, hl, rfl⟩
  · exact .inl rfl
  · exact .inr ⟨rfl, State.setErr_err _ _⟩
  · exact .inl (by simp only [commandError, hv, Bool.false_eq_true, if_false])
  · exact .inr ⟨if_pos hv, State.setErr_err _ _⟩
  · exact .inl (by simp only [commandError, hd, Bool.false_eq_true, if_false])
  · exact .inr ⟨if_pos hd, State.setErr_err _ _⟩
  · exact .inr ⟨rfl, State.setErr_err _ _⟩
  · exact .inl (by simp only [commandError, hl, Bool.false_eq_true, if_false])
  · exact .inr ⟨if_pos hl, State.setErr_err _ _⟩

/-- ERR after a legal command is the code of its error. -/
theorem exec_err {i : Instr} {s t : State} (h : exec i s = .next t) : t.err = (commandError s i).code := by
  rcases exec_commandError h with rfl | ⟨hnone, herr⟩
  · exact State.setErr_err _ _
  · rw [herr, hnone, CmdError.code]

/-- A command word leaves ERR = 0, or it leaves the state before it with an error code in ERR (60_exceptions.md R230). -/
theorem execute_err_eq_zero_or {c : Word} {s t : State} (h : execute c s = .next t) : t.err = 0 ∨ ∃ e, t = s.setErr e := by
  rcases execute_cases h with ⟨i, -, hx⟩ | ⟨-, rfl⟩
  · rcases exec_commandError hx with hfail | ⟨-, herr⟩
    · exact .inr ⟨_, hfail⟩
    · exact .inl herr
  · exact .inr ⟨_, rfl⟩

/-- The seven words of the table are those that decode (30_encoding.md R62). -/
theorem mem_legalWords_iff (c : Word) : c ∈ [0x0#32, 0x1, 0x2, 0x3, 0x13, 0x4, 0x5] ↔ ∃ i, decode c = .ok i := calc
  _ ↔ c ∈ commandWords.map Prod.fst := Iff.rfl
  _ ↔ ∃ i, decode c = .ok i := by
    simp only [List.mem_map, Prod.exists, exists_and_right, exists_eq_right, mem_commandWords_iff, decode_eq_ok_iff]

end Sys2Proof.Machine
end

section
/-!
PROOFS. Command errors (60_exceptions.md R230, R231).
-/

namespace Sys2Proof.Machine

/-- Settles O16: a word outside the table does not decode, and each command of the table has its one check. -/
theorem errorCodeOfEachCommand : Obligations.ErrorCodeOfEachCommand := by
  intro c s
  obtain ⟨t, ht⟩ := execute_next c s
  refine ⟨t, ht, ?_⟩
  simp only [← lutOperandLegal_iff]
  rcases execute_cases ht with ⟨i, hi, hx⟩ | ⟨⟨e, he⟩, rfl⟩
  case inl => -- a word of the table
    rw [if_neg (not_not_intro ((mem_legalWords_iff c).mpr ⟨i, hi⟩)), exec_err hx, encode_of_decode hi]
    cases i with
    | nop | validate | bfdec => rfl
    | setup => cases hv : s.valid <;> simp +decide [commandError, hv]
    | readrow ord => cases ord <;> cases hd : s.setupDone <;> simp +decide [commandError, hd]
    | lutrd => cases hl : lutOperandLegal s.arg <;> simp +decide [commandError, hl]
  case inr => -- any other word
    have hother : c ∉ [0x0#32, 0x1, 0x2, 0x3, 0x13, 0x4, 0x5] := by
      rw [mem_legalWords_iff, he]
      rintro ⟨i, ⟨⟩⟩
    rw [if_pos hother, State.setErr_err, CmdError.code]

/-- Settles O17: a command that does not complete leaves the state before it with an error code, which shows in STATUS.ERR alone. -/
theorem failedCommandChangesOnlyErr : Obligations.FailedCommandChangesOnlyErr := by
  intro c s t h hne
  obtain ⟨e, rfl⟩ := (execute_err_eq_zero_or h).resolve_left hne
  exact setErr_frame s e

end Sys2Proof.Machine
end

section
/-!
SUPPORT. Every transaction completes, what a command leaves to the host, the step of a disturbed command, and the canonical form
of the memories (40_command_interface.md R85; 60_exceptions.md R234; 70_reset_and_hazards.md R262, R274).
-/

namespace Sys2Proof.Machine

/-! ## Every transaction completes -/

theorem step_of_nil {s : State} (h : s.pending = []) : step s = .next s := by simp only [step, h]

/-- A write to the register window is ignored, runs a command or stores: it completes in each case (10_state.md R11). -/
theorem busWrite_next (o : WordOffset) (v : Word) (s : State) : ∃ t, busWrite o v s = .next t := by
  cases ho : Reg.atOffset o with
  | none => exact ⟨s, busWrite_unmapped ho v s⟩
  | some r =>
    obtain rfl := Reg.offset_of_atOffset ho
    by_cases hr : r = .cmd
    · subst hr; rw [busWrite_cmd]; exact execute_next v s
    · exact ⟨_, busWrite_reg hr v s⟩

/-- No transaction and no event stops the core (60_exceptions.md R234, R238). -/
theorem perform_next (op : HostOp) (s : State) : ∃ t, perform op s = .next t := by
  cases op with
  | regWrite o v => exact busWrite_next o v s
  | disturbed c d =>
    obtain ⟨_, hu⟩ := execute_next c { s with source := tearSource s.draws d.changes s.source }
    exact ⟨_, disturbed_of hu⟩
  | regRead _ | sourceStore _ _ | sourceLoad _ | outputStore _ _ | outputLoad _ | reset => exact ⟨_, rfl⟩

/-! ## A disturbed command -/

/-- A command leaves the host's coming transactions and what the host last read. -/
theorem execute_keeps_host {c : Word} {s t : State} (h : execute c s = .next t) :
    t.pending = s.pending ∧ t.readData = s.readData := by
  rcases execute_cases h with ⟨i, -, hx⟩ | ⟨-, rfl⟩
  · obtain ⟨-, -, hops, hrd, -⟩ := exec_keeps hx
    exact ⟨hops, hrd⟩
  · exact ⟨rfl, rfl⟩

/-- What other agents see does not depend on the host's coming transactions. -/
theorem peekBytes_pending (ops : List HostOp) (old new : State) (n : Nat) (js : List (BitVec 32)) :
    peekBytes { old with pending := ops } new n js = peekBytes old new n js := by
  induction js generalizing n with
  | nil => rfl
  | cons j js ih => simp only [peekBytes, ih]; rfl

/-- The step of a disturbed command, from the state `u` its command leaves. -/
theorem step_of_disturbed {s u : State} {rest : List HostOp} {c : Word} {d : Disturbance}
    (hp : s.pending = .disturbed c d :: rest)
    (hu : execute c { s with pending := rest, source := tearSource s.draws d.changes s.source } = .next u) :
    step s = .next { (if d.cut then
          { coreReset { s with pending := rest } with output := mixOutput s.draws s.output u.output (4 * s.rowPixels) }
        else u) with
      source := Memory.putAll s.source d.changes
      seen := peekBytes s u (s.draws + 1) d.reads
      draws := s.draws + 1 + d.reads.length } := by
  rw [step_of_cons hp, ← peekBytes_pending rest]
  exact disturbed_of (s := { s with pending := rest }) hu

/-! ## The canonical form of the memories (log 4) -/

/-- Of the commands only READ_ROW writes the output memory, and it writes by `writeRow`. -/
theorem exec_output_wf {i : Instr} {s t : State} (h : exec i s = .next t) (hs : Memory.wf s.output) : Memory.wf t.output := by
  rcases exec_cases h with ⟨-, rfl⟩ | ⟨-, rfl⟩ | ⟨-, -, rfl⟩ | ⟨-, -, rfl⟩ | ⟨_, -, -, rfl⟩ | ⟨ord, -, -, rfl⟩ | ⟨-, rfl⟩
    | ⟨-, -, rfl⟩ | ⟨-, -, rfl⟩
  case inr.inr.inr.inr.inr.inl => exact writeRow_wf hs _ _ -- READ_ROW with SETUP_DONE = 1
  all_goals exact hs

theorem execute_output_wf {c : Word} {s t : State} (h : execute c s = .next t) (hs : Memory.wf s.output) :
    Memory.wf t.output := by
  rcases execute_cases h with ⟨i, -, hx⟩ | ⟨-, rfl⟩
  · exact exec_output_wf hx hs
  · exact hs

theorem execute_memoriesCanonical {c : Word} {s t : State} (h : execute c s = .next t) (hs : MemoriesCanonical s) :
    MemoriesCanonical t := by
  obtain ⟨hsrc, hout⟩ := hs
  exact ⟨by rwa [execute_source h], execute_output_wf h hout⟩

theorem MemoriesCanonical.congr {s t : State} (hs : MemoriesCanonical s) (hsrc : t.source = s.source)
    (hout : t.output = s.output) : MemoriesCanonical t := by
  rwa [MemoriesCanonical, hsrc, hout]

end Sys2Proof.Machine
end

section
/-!
PROOFS. What every step keeps of the memories' form, the step without a transaction, reset, and the hazards of a disturbed command
(40_command_interface.md R85; 60_exceptions.md R234, R238; 70_reset_and_hazards.md R260, R262, R274).
-/

namespace Sys2Proof.Machine

/-- Settles O51: a step writes to a memory by `Memory.put` alone, byte by byte, and each put keeps the order of the indices. -/
theorem memoriesStayCanonical : Obligations.MemoriesStayCanonical := by
  intro s t hs h
  have ⟨hsrc, hout⟩ := hs
  rcases step_cases h with ⟨-, rfl⟩ | ⟨rest, s₀, rfl, hc⟩
  · exact hs
  rcases hc with ⟨c, -, hx⟩ | ⟨r, v, -, -, rfl⟩ | ⟨o, v, -, -, rfl⟩ | ⟨o, -, rfl⟩ | ⟨i, b, -, rfl⟩ | ⟨i, -, rfl⟩
    | ⟨j, b, -, rfl⟩ | ⟨j, -, rfl⟩ | ⟨-, rfl⟩ | ⟨c, d, u, -, hx, rfl⟩
  · exact execute_memoriesCanonical hx hs
  · obtain ⟨hsrc', hout', -⟩ := hostStore_keeps r v { s with pending := rest }
    exact hs.congr hsrc' hout'
  · exact hs -- a write to an unmapped offset
  · exact hs -- a read of the register window
  · exact ⟨Memory.put_wf hsrc _ _, hout⟩
  · exact hs -- a load from the source memory
  · exact ⟨hsrc, Memory.put_wf hout _ _⟩
  · exact hs -- a load from the output memory
  · exact hs -- reset
  · have hcmd : Memory.wf u.output := execute_output_wf hx hout
    refine ⟨Memory.putAll_wf hsrc _, ?_⟩
    cases d.cut
    · exact hcmd
    · exact mixOutput_wf hout _ _ _

/-- Settles O15: the registers are those of reset, and a mixed memory holds at each index the old byte or, inside the row, the one
the command would have written. -/
theorem resetDuringACommand : Obligations.ResetDuringACommand := by
  intro s u rest c d hp hcut hu
  have hstep := step_of_disturbed hp hu
  rw [if_pos hcut] at hstep
  have hrow : s.rowPixels = s.width.toInt.toNat := rfl
  have hmix := byteAt_mixOutput s.draws s.output u.output (4 * s.rowPixels)
  refine ⟨_, hstep, fun r => ?_, fun i hi => ?_, fun j _ => ?_, fun j hj => ?_⟩
  · exact (sameRegisters_update (s := coreReset { s with pending := rest }) r).trans (coreReset_reg _ r)
  · exact State.sourceByte_congr (Memory.byteAt_putAll_of_notMem _ _ _ hi)
  · rcases hmix j with hold | ⟨-, hnew, -⟩
    · exact .inl (State.outputByte_congr hold)
    · exact .inr (State.outputByte_congr hnew)
  · rcases hmix j with hold | ⟨hlt, -⟩
    · exact State.outputByte_congr hold
    · omega

/-- Settles O42: `seen` is `peekBytes` from the state before to the command's own, and without a reset the state left is the
command's in every register and output byte. -/
theorem outputPeekSeesOldOrNew : Obligations.OutputPeekSeesOldOrNew := by
  intro s u rest c d hp hu
  obtain ⟨hops, hrd⟩ := execute_keeps_host hu
  refine ⟨_, step_of_disturbed hp hu, ?pending, ?readData, fun hcut => ?whole, fun hnone => ?source,
    length_peekBytes _ _ _ _, fun k j hj => peekBytes_old_or_new _ _ _ hj⟩
  case pending =>
    cases d.cut
    · exact hops
    · rfl
  case readData =>
    cases d.cut
    · exact hrd
    · rfl
  case whole =>
    rw [hcut]
    exact ⟨sameRegisters_update, rfl⟩
  case source =>
    rw [execute_source hu, hnone]
    rfl

/-- Settles O14: `coreReset` clears every register and writes to neither memory. -/
theorem resetClearsTheRegisters : Obligations.ResetClearsTheRegisters :=
  fun _ _ hp => ⟨_, step_of_cons hp, coreReset_reg _, fun _ => rfl, fun _ => rfl⟩

/-- Settles O6: the core has no step of its own. -/
theorem idleCoreKeepsItsState : Obligations.IdleCoreKeepsItsState := fun _ hp => step_of_nil hp

/-- Settles O7: a step is idle or performs the first transaction, and each transaction completes. -/
theorem everyStepHasANextState : Obligations.EveryStepHasANextState := by
  intro s
  cases hp : s.pending with
  | nil => exact ⟨s, step_of_nil hp⟩
  | cons op rest => rw [step_of_cons hp]; exact perform_next op _

end Sys2Proof.Machine
end
